-- ==== Sys2Proof/Word.lean ====
section
/-!
DEFINITION. Sys2Proof/Word.lean: the widths of the spec's values (spec/00_scope.md rules R9, R11, R12).
Every value of this hardware is unsigned; bit 0 is the least significant bit.
-/

namespace Sys2Proof

/-- A 4-bit field: a register number (X, Y) or the N field (rule R101). -/
abbrev Nibble := BitVec 4

/-- An 8-bit value: a general register, a memory byte, a timer, the NN field. -/
abbrev Byte := BitVec 8

/-- A 12-bit address field NNN (rule R101). -/
abbrev Addr12 := BitVec 12

/-- A 16-bit value: an opcode, pc, I, a stack entry. -/
abbrev Word := BitVec 16

end Sys2Proof
end

