-- ==== Sys2Proof/Config.lean ====
section
/-!
DEFINITION. Sys2Proof/Config.lean: what an implementation fixes (spec/00_scope.md rules R9 and R10):
the fixed sizes, and the parameters a model takes as its configuration. A machine carries its
configuration as plain data (State.cfg), so a claim about every state quantifies over every
parameter. Log entries 1, 2 and 3.
-/

namespace Sys2Proof

/-- MEM_SIZE (rule R9): 4096 bytes. -/
abbrev memSize : Nat := 4096

/-- STACK_DEPTH (rule R9, decision D39): 12 entries. -/
abbrev stackDepth : Nat := 12

/-- FONT_SIZE (rule R9): 80 bytes at FONT_BASE = 0x000. -/
abbrev fontSize : Nat := 80

/-- ROM_BASE (rule R9). -/
abbrev romBase : Nat := 0x200

/-- ROM_MAX (rule R9): 4096 − 0x200. -/
abbrev romMax : Nat := 3584

/-- DISP_W (rule R9). -/
abbrev dispW : Nat := 64

/-- DISP_H (rule R9). -/
abbrev dispH : Nat := 32

/-- UNSUPPORTED_MODE (rule R10, decision D2): what an unsupported encoding returns. -/
inductive UnsupportedMode where
  | silent
  | strict
  deriving DecidableEq, Repr

/-- SHL_SUBOP (rule R10, decision D5): the sub-opcode N of the left shift. -/
inductive ShlSubop where
  | n8
  | nE
  deriving DecidableEq, Repr

/-- The N field that selects SHL under each value of SHL_SUBOP. -/
def ShlSubop.nibble : ShlSubop → Nibble
  | .n8 => 0x8#4
  | .nE => 0xE#4

/-- OPERAND_ORDER (rules R10 and R220, decision D6): whether the register statement of 8XY4..8XY8
reads its operands after the flag write or uses values read before it. -/
inductive OperandOrder where
  | sequential
  | snapshot
  deriving DecidableEq, Repr

/-- The parameters of rule R10. `memFill` gives MEM_FILL, the value of every byte that neither the
font nor the ROM load writes, in the same form as the machine's memory (an address that it does not
list reads as `Machine.Memory.unlisted`), so it can be any function from 0x000..0xFFF to bytes. -/
structure Config where
  unsupportedMode : UnsupportedMode
  shlSubop : ShlSubop
  operandOrder : OperandOrder
  font : Vector Byte fontSize
  memFill : List Host.Cell
  deriving DecidableEq, Repr

/-- The default FONT, glyphs 0 to F, five bytes each (spec/20_memory.md rule R76).
PRESUMED, unsafe: the spec itself marks the bytes as general knowledge (log entry 3). -/
def conventionalFont : Vector Byte fontSize := #v[
  0xF0, 0x90, 0x90, 0x90, 0xF0,  0x20, 0x60, 0x20, 0x20, 0x70,
  0xF0, 0x10, 0xF0, 0x80, 0xF0,  0xF0, 0x10, 0xF0, 0x10, 0xF0,
  0x90, 0x90, 0xF0, 0x10, 0x10,  0xF0, 0x80, 0xF0, 0x10, 0xF0,
  0xF0, 0x80, 0xF0, 0x90, 0xF0,  0xF0, 0x10, 0x20, 0x40, 0x40,
  0xF0, 0x90, 0xF0, 0x90, 0xF0,  0xF0, 0x90, 0xF0, 0x10, 0xF0,
  0xF0, 0x90, 0xF0, 0x90, 0x90,  0xE0, 0x90, 0xE0, 0x90, 0xE0,
  0xF0, 0x80, 0x80, 0x80, 0xF0,  0xE0, 0x90, 0x90, 0x90, 0xE0,
  0xF0, 0x80, 0xF0, 0x80, 0xF0,  0xF0, 0x80, 0xF0, 0x80, 0x80]

/-- The defaults of rule R10 (Silent, 0x8, Sequential, the conventional font) with the fill of the
test vectors, 0x00. DESIGN CHOICE, unsafe: a claim about this one configuration rests on defaults
the source does not settle (log entries 1, 2 and 3). -/
def Config.default : Config where
  unsupportedMode := .silent
  shlSubop := .n8
  operandOrder := .sequential
  font := conventionalFont
  memFill := []

end Sys2Proof
end

