-- ==== Sys2Proof/Syntax.lean ====
section
/-!
DEFINITION. Sys2Proof/Syntax.lean: the instructions, one constructor per row of
spec/opcode_table.json (22 instructions and 5 unsupported rows; spec/30_encoding.md rules R104 to
R107). A field that the selection ignores (X of CLS and RET, N of SE_reg and SNE_reg, Y of SHR and
SHL) is kept: it is decoded and not used (rules R101, R107).
-/

namespace Sys2Proof

inductive Instr where
  /-- CLS 0XE0 (rule R140); X ignored. -/
  | cls (x : Nibble)
  /-- RET 0XEE (rule R141); X ignored. -/
  | ret (x : Nibble)
  /-- JP 1NNN (rule R160). -/
  | jp (nnn : Addr12)
  /-- CALL 2NNN (rule R161). -/
  | call (nnn : Addr12)
  /-- SE_imm 3XNN (rule R180). -/
  | seImm (x : Nibble) (nn : Byte)
  /-- SNE_imm 4XNN (rule R181). -/
  | sneImm (x : Nibble) (nn : Byte)
  /-- SE_reg 5XYN (rule R182); N ignored. -/
  | seReg (x y n : Nibble)
  /-- LD_imm 6XNN (rule R200). -/
  | ldImm (x : Nibble) (nn : Byte)
  /-- ADD_imm 7XNN (rule R201). -/
  | addImm (x : Nibble) (nn : Byte)
  /-- LD_reg 8XY0 (rule R221). -/
  | ldReg (x y : Nibble)
  /-- OR 8XY1 (rule R222). -/
  | orReg (x y : Nibble)
  /-- AND 8XY2 (rule R223). -/
  | andReg (x y : Nibble)
  /-- XOR 8XY3 (rule R224). -/
  | xorReg (x y : Nibble)
  /-- ADD_reg 8XY4 (rule R225). -/
  | addReg (x y : Nibble)
  /-- SUB 8XY5 (rule R226). -/
  | sub (x y : Nibble)
  /-- SHR 8XY6 (rule R227); Y not read. -/
  | shr (x y : Nibble)
  /-- SUBN 8XY7 (rule R228). -/
  | subn (x y : Nibble)
  /-- SHL 8XY8, or 8XYE when SHL_SUBOP = 0xE (rule R229); Y not read. -/
  | shl (x y : Nibble)
  /-- SNE_reg 9XYN (rule R183); N ignored. -/
  | sneReg (x y n : Nibble)
  /-- LD_I ANNN (rule R204). -/
  | ldI (nnn : Addr12)
  /-- JP_V0 BNNN (rule R170). -/
  | jpV0 (nnn : Addr12)
  /-- DRW DXYN (rule R260). -/
  | drw (x y n : Nibble)
  /-- UNSUPPORTED_0: the rest of family 0x0 (rule R144). -/
  | unsupported0 (nnn : Addr12)
  /-- UNSUPPORTED_8: the rest of family 0x8 (rule R240). -/
  | unsupported8 (x y n : Nibble)
  /-- UNSUPPORTED_C: all of family 0xC (rule R290). -/
  | unsupportedC (nnn : Addr12)
  /-- UNSUPPORTED_E: all of family 0xE (rule R291). -/
  | unsupportedE (nnn : Addr12)
  /-- UNSUPPORTED_F: all of family 0xF (rule R292). -/
  | unsupportedF (nnn : Addr12)
  deriving DecidableEq, Repr

end Sys2Proof
end

