-- ==== Sys2Proof/WellFormed.lean ====
section
/-!
DEFINITION. Sys2Proof/WellFormed.lean: which instructions have an encoding. The field widths are
in the types; what is left to check is that an unsupported row does not name a word that another
row of its family takes (spec/30_encoding.md rule R106).
-/

namespace Sys2Proof

/-- The sub-opcodes N of family 0x8 that select an instruction (rules R104, R240). -/
def aluSubop (cfg : Config) (n : Nibble) : Bool :=
  n.toNat ≤ 7 || n == cfg.shlSubop.nibble

/-- The low bytes NN of family 0x0 that select CLS or RET (rules R104, R144). -/
def family0Selects (nn : Byte) : Bool :=
  nn == 0xE0#8 || nn == 0xEE#8

/-- An instruction that some word encodes under the configuration. -/
def Instr.wf (cfg : Config) : Instr → Bool
  | .unsupported0 nnn => !family0Selects (nnn.extractLsb' 0 8)
  | .unsupported8 _ _ n => !aluSubop cfg n
  | .cls _ | .ret _ | .jp _ | .call _ | .seImm _ _ | .sneImm _ _ | .seReg _ _ _ | .ldImm _ _
  | .addImm _ _ | .ldReg _ _ | .orReg _ _ | .andReg _ _ | .xorReg _ _ | .addReg _ _ | .sub _ _
  | .shr _ _ | .subn _ _ | .shl _ _ | .sneReg _ _ _ | .ldI _ | .jpV0 _ | .drw _ _ _
  | .unsupportedC _ | .unsupportedE _ | .unsupportedF _ => true

/-- The family F that the opcode map gives the instruction (rule R105). -/
def Instr.family : Instr → Nibble
  | .cls _ | .ret _ | .unsupported0 _ => 0x0#4
  | .jp _ => 0x1#4
  | .call _ => 0x2#4
  | .seImm _ _ => 0x3#4
  | .sneImm _ _ => 0x4#4
  | .seReg _ _ _ => 0x5#4
  | .ldImm _ _ => 0x6#4
  | .addImm _ _ => 0x7#4
  | .ldReg _ _ | .orReg _ _ | .andReg _ _ | .xorReg _ _ | .addReg _ _ | .sub _ _ | .shr _ _
  | .subn _ _ | .shl _ _ | .unsupported8 _ _ _ => 0x8#4
  | .sneReg _ _ _ => 0x9#4
  | .ldI _ => 0xA#4
  | .jpV0 _ => 0xB#4
  | .unsupportedC _ => 0xC#4
  | .drw _ _ _ => 0xD#4
  | .unsupportedE _ => 0xE#4
  | .unsupportedF _ => 0xF#4

end Sys2Proof
end

