-- ==== Sys2Proof/Decode.lean ====
section
/-!
DEFINITION. Sys2Proof/Decode.lean: the fields of an opcode (spec/30_encoding.md rule R101), decode
(rule R104: total, one kind for every 16-bit word), the byte-level decoder (rules R71, R100), the
encoder (rule R105) and the host's table word.
-/

namespace Sys2Proof

/-- F = opcode[15:12]. -/
def fieldF (w : Word) : Nibble := w.extractLsb' 12 4

/-- X = opcode[11:8]. -/
def fieldX (w : Word) : Nibble := w.extractLsb' 8 4

/-- Y = opcode[7:4]. -/
def fieldY (w : Word) : Nibble := w.extractLsb' 4 4

/-- N = opcode[3:0]. -/
def fieldN (w : Word) : Nibble := w.extractLsb' 0 4

/-- NN = opcode[7:0]. -/
def fieldNN (w : Word) : Byte := w.extractLsb' 0 8

/-- NNN = opcode[11:0]. -/
def fieldNNN (w : Word) : Addr12 := w.extractLsb' 0 12

/-- Family 0x0 (rule R104): selection on NN alone. -/
def decodeFamily0 (w : Word) : Instr :=
  if fieldNN w = 0xE0#8 then .cls (fieldX w)
  else if fieldNN w = 0xEE#8 then .ret (fieldX w)
  else .unsupported0 (fieldNNN w)

/-- Family 0x8 (rule R104): selection on N, with SHL at SHL_SUBOP. -/
def decodeFamily8 (cfg : Config) (w : Word) : Instr :=
  let x := fieldX w
  let y := fieldY w
  let n := fieldN w
  if n = 0x0#4 then .ldReg x y
  else if n = 0x1#4 then .orReg x y
  else if n = 0x2#4 then .andReg x y
  else if n = 0x3#4 then .xorReg x y
  else if n = 0x4#4 then .addReg x y
  else if n = 0x5#4 then .sub x y
  else if n = 0x6#4 then .shr x y
  else if n = 0x7#4 then .subn x y
  else if n = cfg.shlSubop.nibble then .shl x y
  else .unsupported8 x y n

/-- decode (rule R104): the instruction of any opcode, in the order of the dispatch table. -/
def decode (cfg : Config) (w : Word) : Instr :=
  let f := fieldF w
  if f = 0x0#4 then decodeFamily0 w
  else if f = 0x1#4 then .jp (fieldNNN w)
  else if f = 0x2#4 then .call (fieldNNN w)
  else if f = 0x3#4 then .seImm (fieldX w) (fieldNN w)
  else if f = 0x4#4 then .sneImm (fieldX w) (fieldNN w)
  else if f = 0x5#4 then .seReg (fieldX w) (fieldY w) (fieldN w)
  else if f = 0x6#4 then .ldImm (fieldX w) (fieldNN w)
  else if f = 0x7#4 then .addImm (fieldX w) (fieldNN w)
  else if f = 0x8#4 then decodeFamily8 cfg w
  else if f = 0x9#4 then .sneReg (fieldX w) (fieldY w) (fieldN w)
  else if f = 0xA#4 then .ldI (fieldNNN w)
  else if f = 0xB#4 then .jpV0 (fieldNNN w)
  else if f = 0xC#4 then .unsupportedC (fieldNNN w)
  else if f = 0xD#4 then .drw (fieldX w) (fieldY w) (fieldN w)
  else if f = 0xE#4 then .unsupportedE (fieldNNN w)
  else .unsupportedF (fieldNNN w)

/-- Why a byte sequence gives no instruction. Every 16-bit word decodes (rule R104), so the one
reason is a sequence that ends inside the instruction. -/
inductive DecodeError where
  | truncated
  deriving DecidableEq, Repr

/-- The opcode of two consecutive bytes, the byte at the lower address in the high bits (rule R71). -/
def opcodeOfBytes (hi lo : Byte) : Word := hi ++ lo

/-- The bytes of an opcode as memory holds them, lowest address first (rule R71). -/
def bytesOfOpcode (w : Word) : List Byte := [w.extractLsb' 8 8, w.extractLsb' 0 8]

/-- The first instruction of a byte sequence and the bytes after it (rules R71, R100). -/
def decodeBytes (cfg : Config) : List Byte → Except DecodeError (Instr × List Byte)
  | hi :: lo :: rest => .ok (decode cfg (opcodeOfBytes hi lo), rest)
  | _ => .error .truncated

/-- The opcode of an instruction, from the opcode map of rule R105. An ignored field keeps the bits
the instruction carries. -/
def encode (cfg : Config) : Instr → Word
  | .cls x => 0x0#4 ++ x ++ 0xE0#8
  | .ret x => 0x0#4 ++ x ++ 0xEE#8
  | .jp nnn => 0x1#4 ++ nnn
  | .call nnn => 0x2#4 ++ nnn
  | .seImm x nn => 0x3#4 ++ x ++ nn
  | .sneImm x nn => 0x4#4 ++ x ++ nn
  | .seReg x y n => 0x5#4 ++ x ++ y ++ n
  | .ldImm x nn => 0x6#4 ++ x ++ nn
  | .addImm x nn => 0x7#4 ++ x ++ nn
  | .ldReg x y => 0x8#4 ++ x ++ y ++ 0x0#4
  | .orReg x y => 0x8#4 ++ x ++ y ++ 0x1#4
  | .andReg x y => 0x8#4 ++ x ++ y ++ 0x2#4
  | .xorReg x y => 0x8#4 ++ x ++ y ++ 0x3#4
  | .addReg x y => 0x8#4 ++ x ++ y ++ 0x4#4
  | .sub x y => 0x8#4 ++ x ++ y ++ 0x5#4
  | .shr x y => 0x8#4 ++ x ++ y ++ 0x6#4
  | .subn x y => 0x8#4 ++ x ++ y ++ 0x7#4
  | .shl x y => 0x8#4 ++ x ++ y ++ cfg.shlSubop.nibble
  | .sneReg x y n => 0x9#4 ++ x ++ y ++ n
  | .ldI nnn => 0xA#4 ++ nnn
  | .jpV0 nnn => 0xB#4 ++ nnn
  | .drw x y n => 0xD#4 ++ x ++ y ++ n
  | .unsupported0 nnn => 0x0#4 ++ nnn
  | .unsupported8 x y n => 0x8#4 ++ x ++ y ++ n
  | .unsupportedC nnn => 0xC#4 ++ nnn
  | .unsupportedE nnn => 0xE#4 ++ nnn
  | .unsupportedF nnn => 0xF#4 ++ nnn

/-- The opcode of a row of spec/opcode_table.json whose bits are `w`, numbered as the table numbers
them; bits at or above `nbits` are 0. -/
def tableOpcode (nbits w : Nat) : Word := BitVec.ofNat 16 (w % 2 ^ nbits)

/-- The instruction the decoder reads from the table's bits, laid out as memory holds them and
decoded under the default configuration (the one of State.reset). -/
def decodeTableWord (nbits w : Nat) : Option Instr :=
  match decodeBytes Config.default (bytesOfOpcode (tableOpcode nbits w)) with
  | .ok (i, _) => some i
  | .error _ => none

end Sys2Proof
end

