-- ==== Sys2Proof/Machine/Flags.lean ====
section
/-!
DEFINITION. Sys2Proof/Machine/Flags.lean: the values that instructions write into VF as a flag
(spec/10_state.md rule R47; spec/44_alu_8xy.md rules R225 to R229; spec/45_draw.md rule R265).
Each is 0 or 1.
-/

namespace Sys2Proof.Machine

/-- The flag value 1 or 0. -/
def flagOf (c : Bool) : Byte := if c then 0x01#8 else 0x00#8

/-- 8XY4: 1 when a + b exceeds 255 (rule R225). -/
def carryFlag (a b : Byte) : Byte := flagOf (decide (a.toNat + b.toNat > 255))

/-- 8XY5 and 8XY7: 1 when minuend − subtrahend is negative, 0 when it is not, equality included
(rules R226, R228; the source's polarity, spec/93_implementation_defined.md G5). -/
def borrowFlag (minuend subtrahend : Byte) : Byte :=
  flagOf (decide (subtrahend.toNat > minuend.toNat))

/-- 8XY6: the bit shifted out on the right (rule R227). -/
def lowBitFlag (a : Byte) : Byte := a &&& 0x01#8

/-- 8XY8: the bit shifted out on the left (rule R229). -/
def highBitFlag (a : Byte) : Byte := (a >>> 7) &&& 0x01#8

end Sys2Proof.Machine
end

