-- ==== Sys2Proof/Machine/State.lean ====
section
/-!
DEFINITION. Sys2Proof/Machine/State.lean: the state (spec/10_state.md rules R30 and R45), the
reasons a step stops, the outcomes a command returns (spec/60_exceptions.md rule R311), and the
state after reset (rule R48). State is plain data.
-/

namespace Sys2Proof.Machine

/-- The fatal faults with their recorded values (spec/60_exceptions.md rules R311, R312). This is the
type of the fault latch FL, and of what a step answers while FL holds one. -/
inductive Fault where
  /-- Code 1. Raised by CALL at full depth with the address of the CALL (rule R161); a step that
  finds it in FL answers `Outcome.fault` with it (rule R317). Safe: the machine may not run on. -/
  | stackOverflow (addr : Word)
  /-- Code 2. Raised by RET on an empty stack with the address of the RET (rule R141); a step that
  finds it in FL answers `Outcome.fault` with it (rule R317). Safe: the machine may not run on. -/
  | stackUnderflow (addr : Word)
  /-- Code 3. Raised by a fetch (rule R73) or by DRW (rule R262) with the lowest out-of-range
  address; a step that finds it in FL answers `Outcome.fault` with it (rule R317). Safe: the spec
  faults where the source leaves the access open (decision D7). -/
  | memoryOutOfRange (addr : Word)
  deriving DecidableEq, Repr

/-- Why the core refuses a step. -/
inductive Refusal where
  /-- An instruction that exec gives no meaning to; no arm of exec answers it. Safe. -/
  | notModelled (mnemonic : String)
  /-- Code 5. A step while run_state is not Running (spec/60_exceptions.md rule R318): the core
  refuses it and nothing changes. Raised by `gate`. Safe. -/
  | notRunning
  deriving DecidableEq, Repr

/-- What a command returns to the host (spec/60_exceptions.md rules R310, R311). -/
inductive Reply where
  /-- Code 0. -/
  | ok
  /-- Codes 1 to 3: the fault a step raised, or found in FL. -/
  | fault (f : Fault)
  /-- Code 4: the Strict report of an unsupported encoding (rule R293). -/
  | unsupportedOpcode (opcode addr : Word)
  /-- Code 5 (rule R318). -/
  | notRunning
  /-- Code 6, with the length: a load (rule R84), a creation or a reset (rule R361) with too many
  bytes. -/
  | romTooLarge (len : Nat)
  /-- A load after a step has been performed (spec/20_memory.md rule R85); the spec numbers no code
  for it. -/
  | loadRefused
  deriving DecidableEq, Repr

/-- run_state RS (rule R44). -/
inductive RunState where
  | running
  | paused
  | halted
  deriving DecidableEq, Repr

/-- The byte memory: the listed cells, addresses strictly rising; an address that is not listed
reads as `Memory.unlisted`. -/
abbrev Memory := List Host.Cell

/-- The display: row y, then column x, as D[y][x] (rules R13, R42). -/
abbrev Display := Vector (Vector Bool dispW) dispH

/-- The machine state: the components of rules R30 and R45, and the model's own `cfg`, `reply` and
`stepped` (log entries 1, 7, 8). -/
structure State where
  /-- The configuration (rule R10), fixed when the machine is created. -/
  cfg : Config
  /-- M (rule R43). -/
  mem : Memory
  /-- V[0..15] (rule R31); VF is V[15] (rule R32). -/
  v : Vector Byte 16
  /-- The index register I (rule R34). -/
  index : Word
  /-- The program counter (rule R35): between steps, the address of the next instruction. -/
  pc : Word
  /-- S[0..11] (rule R38); entries at or above `sp` are held and never read (rule R39). -/
  stack : Vector Word stackDepth
  /-- SP, the call-stack depth 0..12 (rule R38). -/
  sp : Fin (stackDepth + 1)
  /-- DT (rule R40). -/
  dt : Byte
  /-- ST (rule R40). -/
  st : Byte
  /-- K[0..15], true when the key is down (rule R41). -/
  keypad : Vector Bool 16
  /-- D (rule R42). -/
  display : Display
  /-- RS (rule R44). -/
  rs : RunState
  /-- FL (rule R45). -/
  fl : Option Fault
  /-- What the last command returned (rule R310). -/
  reply : Reply
  /-- A step has been performed since creation (rule R85). -/
  stepped : Bool
  deriving DecidableEq, Repr

/-- The display with every pixel unlit. -/
def Display.clear : Display := Vector.replicate dispH (Vector.replicate dispW false)

/-- The machine right after reset (rule R48): created under the default configuration with a ROM
of no bytes. Memory lists nothing, so it holds the font and the fill (log entries 2, 3, 5). -/
def State.reset : State where
  cfg := Config.default
  mem := []
  v := Vector.replicate 16 0x00#8
  index := 0x0000#16
  pc := 0x0200#16
  stack := Vector.replicate stackDepth 0x0000#16
  sp := 0
  dt := 0x00#8
  st := 0x00#8
  keypad := Vector.replicate 16 false
  display := Display.clear
  rs := .running
  fl := none
  reply := .ok
  stepped := false

end Sys2Proof.Machine
end

