-- ==== Sys2Proof/Machine/Ops.lean ====
section
/-!
DEFINITION. Sys2Proof/Machine/Ops.lean: the named operations over memory, registers, the call
stack and the display, the ways a step ends (completing, reporting, raising a fault) and the gates
and the fetch of a step (spec/00_scope.md rules R13 to R15; spec/10_state.md; spec/20_memory.md;
spec/30_encoding.md rule R103; spec/60_exceptions.md rules R310 to R318).
-/

namespace Sys2Proof.Machine

/-! ## Memory -/

/-- What an address that memory does not list reads as: the contents of a machine created under the
default configuration with no ROM, i.e. the font at 0x000..0x04F (rule R76) and the fill 0x00
elsewhere (decision D14: OPEN). DESIGN CHOICE for the fill, PRESUMED for the font; unsafe (log
entries 2 and 3). -/
def Memory.unlisted (a : Nat) : Byte :=
  if h : a < fontSize then conventionalFont[a] else 0x00#8

/-- M[a]. -/
def Memory.read : Memory → Nat → Byte
  | [], a => Memory.unlisted a
  | (k, b) :: m, a => if a = k then b else Memory.read m a

/-- M[a] <- b, keeping the canonical form: an entry that says what the address reads as anyway is
left out. -/
def Memory.write : Memory → Nat → Byte → Memory
  | [], a, b => if b = Memory.unlisted a then [] else [(a, b)]
  | (k, c) :: m, a, b =>
    if a < k then
      if b = Memory.unlisted a then (k, c) :: m else (a, b) :: (k, c) :: m
    else if a = k then
      if b = Memory.unlisted a then m else (a, b) :: m
    else (k, c) :: Memory.write m a b

/-- MemWrite of a run of bytes from `a` upward (rule R14; used by creation and by load only). -/
def Memory.writeAll : Memory → Nat → List Byte → Memory
  | m, _, [] => m
  | m, a, b :: bs => Memory.writeAll (Memory.write m a b) (a + 1) bs

/-- Addresses at least `lo`, strictly rising, inside the memory, and no entry that an unlisted
address would read as anyway. -/
def Memory.wfFrom : Nat → Memory → Bool
  | _, [] => true
  | lo, (k, b) :: m =>
    decide (lo ≤ k) && decide (k < memSize) && decide (b ≠ Memory.unlisted k) &&
      Memory.wfFrom (k + 1) m

/-- The canonical form of memory. -/
def Memory.wf (m : Memory) : Bool := Memory.wfFrom 0 m

/-- The fault of an access to the `n` bytes from `a`, if it leaves memory (rules R14, R73): the
recorded address is the lowest one that is out of range. -/
def rangeFault (a n : Nat) : Option Fault :=
  if 0 < n ∧ memSize < a + n then
    some (.memoryOutOfRange (BitVec.ofNat 16 (max a memSize)))
  else none

/-! ## Registers -/

/-- The number of VF, V[15] (rule R32). -/
def regVF : Nibble := 0xF#4

/-- V[i] (rule R13). -/
def State.getV (s : State) (i : Nibble) : Byte := s.v[i.toNat]'i.isLt

/-- V[i] <- b (rule R13). -/
def State.setV (s : State) (i : Nibble) (b : Byte) : State :=
  { s with v := s.v.set i.toNat b i.isLt }

/-- The fetch's advance of pc past the instruction (rules R35, R103). -/
def State.advance (s : State) : State := { s with pc := s.pc + 2#16 }

/-- A taken skip: 2 more on top of the fetch's advance (rules R17, R184). -/
def State.skipIf (c : Bool) (s : State) : State :=
  if c then { s with pc := s.pc + 2#16 } else s

/-! ## Call stack -/

/-- push(a) (rule R38); none when the stack is full. -/
def State.push (s : State) (a : Word) : Option State :=
  if h : s.sp.val < stackDepth then
    some { s with stack := s.stack.set s.sp.val a h, sp := ⟨s.sp.val + 1, by omega⟩ }
  else none

/-- pop() (rule R38): the popped address, and the stack without it (its entry is not cleared, rule
R39); none when the stack is empty. -/
def State.pop (s : State) : Option (Word × State) :=
  if h : 0 < s.sp.val then
    some (s.stack[s.sp.val - 1]'(by have := s.sp.isLt; omega),
      { s with sp := ⟨s.sp.val - 1, by have := s.sp.isLt; omega⟩ })
  else none

/-! ## Display -/

/-- D[y][x]; false outside the display, which no rule reads. -/
def Display.pixel (d : Display) (x y : Nat) : Bool :=
  if h : y < dispH ∧ x < dispW then (d[y]'h.1)[x]'h.2 else false

/-- D[y][x] <- D[y][x] xor bit (rule R265); nothing outside the display. -/
def Display.xorPixel (d : Display) (x y : Nat) (bit : Bool) : Display :=
  if h : y < dispH ∧ x < dispW then
    d.set y ((d[y]'h.1).set x ((d[y]'h.1)[x]'h.2 ^^ bit) h.2) h.1
  else d

/-- The display as the host reads it: 2048 booleans, row-major (rules R42, R336). -/
def Display.sequence (d : Display) : List Bool :=
  d.toList.flatMap Vector.toList

/-! ## How a step ends -/

/-- The step completes and returns Ok (rules R103, R311). -/
def complete (s : State) : Host.Outcome State Fault Refusal :=
  .next { s with reply := .ok, stepped := true }

/-- `report UnsupportedOpcode` (rules R15, R293): the step's changes stand, FL is not set, and the
report is returned. -/
def reportUnsupported (opcode addr : Word) (s : State) : Host.Outcome State Fault Refusal :=
  .next { s with reply := .unsupportedOpcode opcode addr, stepped := true }

/-- `raise f` (rules R15, R316): taking a fault. `s` is the state BEFORE the step; nothing of it is
changed but FL, which is set to the fault, and the fault is returned. -/
def raise (f : Fault) (s : State) : Host.Outcome State Fault Refusal :=
  .next { s with fl := some f, reply := .fault f, stepped := true }

/-! ## The gates and the fetch of a step -/

/-- The checks before the fetch, in order (rules R103, R314): a step outside Running is refused
(rule R318); a step with FL set returns the latched fault (rule R317). Either way nothing
changes. -/
def gate (s : State) : Option (Host.Outcome State Fault Refusal) :=
  if s.rs ≠ .running then some (.refused .notRunning)
  else
    match s.fl with
    | some f => some (.fault f)
    | none => none

/-- opcode <- MemRead(pc, 2) (rules R71, R73). -/
def fetch (s : State) : Except Fault Word :=
  match rangeFault s.pc.toNat 2 with
  | some f => .error f
  | none => .ok (opcodeOfBytes (s.mem.read s.pc.toNat) (s.mem.read (s.pc.toNat + 1)))

/-- Memory with an opcode stored at `a`, as the fetch reads it (rule R71); as it was where the two
bytes do not fit. -/
def Memory.placeOpcode (m : Memory) (a : Nat) (w : Word) : Memory :=
  if a + 2 ≤ memSize then m.writeAll a (bytesOfOpcode w) else m

end Sys2Proof.Machine
end

