-- ==== Sys2Proof/Machine/Operands.lean ====
section
/-!
DEFINITION. Sys2Proof/Machine/Operands.lean: operand assembly (spec/30_encoding.md rule R102), the
order of operand reads and flag writes (spec/44_alu_8xy.md rule R220), and the origin and the bytes
of a sprite (spec/45_draw.md rules R261 to R263).
-/

namespace Sys2Proof.Machine

/-- zext_16(NNN) (rule R102). -/
def absoluteAddress (nnn : Addr12) : Word := nnn.zeroExtend 16

/-- zext_16(V[0]) + zext_16(NNN), not reduced modulo 4096 (rule R170, decision D9). -/
def offsetAddress (v0 : Byte) (nnn : Addr12) : Word := v0.zeroExtend 16 + nnn.zeroExtend 16

/-- The two statements of a flag-writing row (rule R220): VF <- flag, then V[X] <- result. Under
Sequential the second statement reads V[X] and V[Y] after the flag write; under Snapshot it uses
the values read before it. -/
def State.flagThenResult (s : State) (x y : Nibble) (flag result : Byte → Byte → Byte) : State :=
  let a := s.getV x
  let b := s.getV y
  let s1 := s.setV regVF (flag a b)
  match s.cfg.operandOrder with
  | .sequential => s1.setV x (result (s1.getV x) (s1.getV y))
  | .snapshot => s1.setV x (result a b)

/-- The origin column x0 = V[X] mod 64 (rule R261). -/
def originX (s : State) (x : Nibble) : Nat := (s.getV x).toNat % dispW

/-- The origin row y0 = V[Y] mod 32 (rule R261). -/
def originY (s : State) (y : Nibble) : Nat := (s.getV y).toNat % dispH

/-- The sprite bytes M[I], ..., M[I + n − 1] (rule R262), top row first. -/
def spriteBytes (s : State) (n : Nat) : List Byte :=
  (List.range n).map fun r => s.mem.read (s.index.toNat + r)

/-- The pixels of a sprite row, leftmost first: bit 7 down to bit 0 (rule R263). -/
def rowBits (row : Byte) : List Bool :=
  (List.range 8).map fun b => row.getLsbD (7 - b)

end Sys2Proof.Machine
end

