-- ==== Sys2Proof/Machine/Alu.lean ====
section
/-!
DEFINITION. Sys2Proof/Machine/Alu.lean: the register-register ALU 8XY0 to 8XY8
(spec/44_alu_8xy.md). Additions and subtractions of 8-bit vectors wrap modulo 256 (rule R241).
-/

namespace Sys2Proof.Machine

/-- LD_reg (rule R221). -/
def execLdReg (x y : Nibble) (s : State) : Host.Outcome State Fault Refusal :=
  complete (s.advance.setV x (s.getV y))

/-- OR (rule R222); VF is not reset. -/
def execOrReg (x y : Nibble) (s : State) : Host.Outcome State Fault Refusal :=
  complete (s.advance.setV x (s.getV x ||| s.getV y))

/-- AND (rule R223); VF is not reset. -/
def execAndReg (x y : Nibble) (s : State) : Host.Outcome State Fault Refusal :=
  complete (s.advance.setV x (s.getV x &&& s.getV y))

/-- XOR (rule R224); VF is not reset. -/
def execXorReg (x y : Nibble) (s : State) : Host.Outcome State Fault Refusal :=
  complete (s.advance.setV x (s.getV x ^^^ s.getV y))

/-- ADD_reg (rule R225). -/
def execAddReg (x y : Nibble) (s : State) : Host.Outcome State Fault Refusal :=
  complete (s.advance.flagThenResult x y carryFlag fun a b => a + b)

/-- SUB (rule R226): V[X] − V[Y], VF = 1 on borrow. -/
def execSub (x y : Nibble) (s : State) : Host.Outcome State Fault Refusal :=
  complete (s.advance.flagThenResult x y borrowFlag fun a b => a - b)

/-- SHR (rule R227): V[Y] is not read. -/
def execShr (x : Nibble) (s : State) : Host.Outcome State Fault Refusal :=
  complete (s.advance.flagThenResult x x (fun a _ => lowBitFlag a) fun a _ => a >>> 1)

/-- SUBN (rule R228): V[Y] − V[X], VF = 1 on borrow. -/
def execSubn (x y : Nibble) (s : State) : Host.Outcome State Fault Refusal :=
  complete (s.advance.flagThenResult x y (fun a b => borrowFlag b a) fun a b => b - a)

/-- SHL (rule R229): V[Y] is not read. -/
def execShl (x : Nibble) (s : State) : Host.Outcome State Fault Refusal :=
  complete (s.advance.flagThenResult x x (fun a _ => highBitFlag a) fun a _ => a <<< 1)

end Sys2Proof.Machine
end

