-- ==== Sys2Proof/Machine/Draw.lean ====
section
/-!
DEFINITION. Sys2Proof/Machine/Draw.lean: DRW, the XOR sprite draw with collision detection
(spec/45_draw.md). The drawing functions carry the display and whether a lit pixel has been hit.
-/

namespace Sys2Proof.Machine

/-- The pixels of one row from column x rightward; a column above 63 stops the row (rule R264). -/
def drawRow : List Bool → Nat → Nat → Display × Bool → Display × Bool
  | [], _, _, acc => acc
  | bit :: bits, x, y, (d, hit) =>
    if dispW ≤ x then (d, hit)
    else drawRow bits (x + 1) y (d.xorPixel x y bit, hit || (bit && d.pixel x y))

/-- The rows of a sprite from row y downward, each from column x0; a row above 31 stops the whole
draw (rule R264). -/
def drawRows : List Byte → Nat → Nat → Display × Bool → Display × Bool
  | [], _, _, acc => acc
  | row :: rows, x0, y, acc =>
    if dispH ≤ y then acc
    else drawRows rows x0 (y + 1) (drawRow (rowBits row) x0 y acc)

/-- DRW (rule R260): the origin is read before VF is written (rule R261), the whole range is checked
before any effect (rule R262), VF is reset and then set on a collision (rule R265). -/
def execDrw (x y n : Nibble) (s : State) : Host.Outcome State Fault Refusal :=
  match rangeFault s.index.toNat n.toNat with
  | some f => raise f s
  | none =>
    let drawn := drawRows (spriteBytes s n.toNat) (originX s x) (originY s y) (s.display, false)
    complete { s.advance.setV regVF (flagOf drawn.2) with display := drawn.1 }

end Sys2Proof.Machine
end

