-- ==== Sys2Proof/Machine/Jump.lean ====
section
/-!
DEFINITION. Sys2Proof/Machine/Jump.lean: JP, CALL and JP_V0 (spec/41_jump_call.md).
-/

namespace Sys2Proof.Machine

/-- JP (rule R160). -/
def execJp (nnn : Addr12) (s : State) : Host.Outcome State Fault Refusal :=
  complete { s with pc := absoluteAddress nnn }

/-- CALL (rule R161): the pushed value is pc after the fetch's advance, the return address. -/
def execCall (nnn : Addr12) (s : State) : Host.Outcome State Fault Refusal :=
  match s.advance.push s.advance.pc with
  | none => raise (.stackOverflow s.pc) s
  | some s1 => complete { s1 with pc := absoluteAddress nnn }

/-- JP_V0 (rule R170). -/
def execJpV0 (nnn : Addr12) (s : State) : Host.Outcome State Fault Refusal :=
  complete { s with pc := offsetAddress (s.getV 0x0#4) nnn }

end Sys2Proof.Machine
end

