-- ==== Sys2Proof/Machine/Load.lean ====
section
/-!
DEFINITION. Sys2Proof/Machine/Load.lean: LD_imm, ADD_imm and LD_I (spec/43_register_load.md).
-/

namespace Sys2Proof.Machine

/-- LD_imm (rule R200). -/
def execLdImm (x : Nibble) (nn : Byte) (s : State) : Host.Outcome State Fault Refusal :=
  complete (s.advance.setV x nn)

/-- ADD_imm (rule R201): wrapping, VF not written as a carry. -/
def execAddImm (x : Nibble) (nn : Byte) (s : State) : Host.Outcome State Fault Refusal :=
  complete (s.advance.setV x (s.getV x + nn))

/-- LD_I (rule R204). -/
def execLdI (nnn : Addr12) (s : State) : Host.Outcome State Fault Refusal :=
  complete { s.advance with index := absoluteAddress nnn }

end Sys2Proof.Machine
end

