-- ==== Sys2Proof/Machine/Skip.lean ====
section
/-!
DEFINITION. Sys2Proof/Machine/Skip.lean: the conditional skips (spec/42_skip.md).
-/

namespace Sys2Proof.Machine

/-- SE_imm (rule R180). -/
def execSeImm (x : Nibble) (nn : Byte) (s : State) : Host.Outcome State Fault Refusal :=
  complete (s.advance.skipIf (s.getV x == nn))

/-- SNE_imm (rule R181). -/
def execSneImm (x : Nibble) (nn : Byte) (s : State) : Host.Outcome State Fault Refusal :=
  complete (s.advance.skipIf (s.getV x != nn))

/-- SE_reg (rule R182). -/
def execSeReg (x y : Nibble) (s : State) : Host.Outcome State Fault Refusal :=
  complete (s.advance.skipIf (s.getV x == s.getV y))

/-- SNE_reg (rule R183). -/
def execSneReg (x y : Nibble) (s : State) : Host.Outcome State Fault Refusal :=
  complete (s.advance.skipIf (s.getV x != s.getV y))

end Sys2Proof.Machine
end

