-- ==== Sys2Proof/Machine/System.lean ====
section
/-!
DEFINITION. Sys2Proof/Machine/System.lean: CLS and RET (spec/40_family0_system.md). A meaning takes
the state before the step; the fetch's advance of pc (spec/30_encoding.md rule R103) is its first
act, and a fault commits nothing (spec/60_exceptions.md rule R316).
-/

namespace Sys2Proof.Machine

/-- CLS (rule R140). -/
def execCls (s : State) : Host.Outcome State Fault Refusal :=
  complete { s.advance with display := Display.clear }

/-- RET (rule R141). -/
def execRet (s : State) : Host.Outcome State Fault Refusal :=
  match s.pop with
  | none => raise (.stackUnderflow s.pc) s
  | some (target, s1) => complete { s1 with pc := target }

end Sys2Proof.Machine
end

