-- ==== Sys2Proof/Machine/Unsupported.lean ====
section
/-!
DEFINITION. Sys2Proof/Machine/Unsupported.lean: the unsupported encodings (spec/46_unsupported.md).
Only the fetch's advance of pc happens; under Strict the step reports the opcode and its address.
-/

namespace Sys2Proof.Machine

/-- The behaviour of every unsupported encoding (rule R293). -/
def unsupportedStep (opcode : Word) (s : State) : Host.Outcome State Fault Refusal :=
  match s.cfg.unsupportedMode with
  | .silent => complete s.advance
  | .strict => reportUnsupported opcode s.pc s.advance

/-- UNSUPPORTED_0 (rules R144, R293). -/
def execUnsupported0 (nnn : Addr12) (s : State) : Host.Outcome State Fault Refusal :=
  unsupportedStep (encode s.cfg (.unsupported0 nnn)) s

/-- UNSUPPORTED_8 (rules R240, R293). -/
def execUnsupported8 (x y n : Nibble) (s : State) : Host.Outcome State Fault Refusal :=
  unsupportedStep (encode s.cfg (.unsupported8 x y n)) s

/-- UNSUPPORTED_C (rules R290, R293). -/
def execUnsupportedC (nnn : Addr12) (s : State) : Host.Outcome State Fault Refusal :=
  unsupportedStep (encode s.cfg (.unsupportedC nnn)) s

/-- UNSUPPORTED_E (rules R291, R293). -/
def execUnsupportedE (nnn : Addr12) (s : State) : Host.Outcome State Fault Refusal :=
  unsupportedStep (encode s.cfg (.unsupportedE nnn)) s

/-- UNSUPPORTED_F (rules R292, R293). -/
def execUnsupportedF (nnn : Addr12) (s : State) : Host.Outcome State Fault Refusal :=
  unsupportedStep (encode s.cfg (.unsupportedF nnn)) s

end Sys2Proof.Machine
end

