-- ==== Sys2Proof/Machine/Dispatch.lean ====
section
/-!
DEFINITION. Sys2Proof/Machine/Dispatch.lean: one arm per instruction (spec/30_encoding.md rule
R103, "execute"). An ignored field (rule R107) is not passed on.
-/

namespace Sys2Proof.Machine

def exec (i : Instr) (s : State) : Host.Outcome State Fault Refusal :=
  match i with
  -- family 0x0
  | .cls _ => Sys2Proof.Machine.execCls s
  | .ret _ => Sys2Proof.Machine.execRet s
  -- jumps and calls
  | .jp nnn => Sys2Proof.Machine.execJp nnn s
  | .call nnn => Sys2Proof.Machine.execCall nnn s
  -- skips on an immediate and on registers
  | .seImm x nn => Sys2Proof.Machine.execSeImm x nn s
  | .sneImm x nn => Sys2Proof.Machine.execSneImm x nn s
  | .seReg x y _ => Sys2Proof.Machine.execSeReg x y s
  -- immediates
  | .ldImm x nn => Sys2Proof.Machine.execLdImm x nn s
  | .addImm x nn => Sys2Proof.Machine.execAddImm x nn s
  -- register-register ALU
  | .ldReg x y => Sys2Proof.Machine.execLdReg x y s
  | .orReg x y => Sys2Proof.Machine.execOrReg x y s
  | .andReg x y => Sys2Proof.Machine.execAndReg x y s
  | .xorReg x y => Sys2Proof.Machine.execXorReg x y s
  | .addReg x y => Sys2Proof.Machine.execAddReg x y s
  | .sub x y => Sys2Proof.Machine.execSub x y s
  | .shr x _ => Sys2Proof.Machine.execShr x s
  | .subn x y => Sys2Proof.Machine.execSubn x y s
  | .shl x _ => Sys2Proof.Machine.execShl x s
  | .sneReg x y _ => Sys2Proof.Machine.execSneReg x y s
  -- index, offset jump, draw
  | .ldI nnn => Sys2Proof.Machine.execLdI nnn s
  | .jpV0 nnn => Sys2Proof.Machine.execJpV0 nnn s
  | .drw x y n => Sys2Proof.Machine.execDrw x y n s
  -- unsupported encodings
  | .unsupported0 nnn => Sys2Proof.Machine.execUnsupported0 nnn s
  | .unsupported8 x y n => Sys2Proof.Machine.execUnsupported8 x y n s
  | .unsupportedC nnn => Sys2Proof.Machine.execUnsupportedC nnn s
  | .unsupportedE nnn => Sys2Proof.Machine.execUnsupportedE nnn s
  | .unsupportedF nnn => Sys2Proof.Machine.execUnsupportedF nnn s

end Sys2Proof.Machine
end

