-- ==== Sys2Proof/Machine/Step.lean ====
section
/-!
DEFINITION. Sys2Proof/Machine/Step.lean: one call of step() (spec/30_encoding.md rule R103), and
the placing of an instruction for the host's check.
-/

namespace Sys2Proof.Machine

/-- step() (rule R103): the gates (rules R317, R318), the fetch (rule R73 for its fault), decode
(rule R104), execute. The advance of pc is the meaning's first act, so that a fault commits
nothing. -/
def step (s : State) : Host.Outcome State Fault Refusal :=
  match gate s with
  | some answer => answer
  | none =>
    match fetch s with
    | .error f => raise f s
    | .ok w => exec (decode s.cfg w) s

/-- The state with the table's word stored at pc, Running and with no fault latched, so that the
next step fetches and runs exactly it. It stands for the host's load (log entry 5). -/
def State.withFetchWord (s : State) (nbits w : Nat) : State :=
  { s with
    mem := s.mem.placeOpcode s.pc.toNat (tableOpcode nbits w)
    rs := .running
    fl := none }

end Sys2Proof.Machine
end

