-- ==== Sys2Proof/Machine/HostInterface.lean ====
section
/-!
DEFINITION. Sys2Proof/Machine/HostInterface.lean: creation and the host's commands, each atomic and
between steps (spec/60_exceptions.md sections 5 and 6, rule R347; spec/20_memory.md rules R84, R85;
spec/70_reset_and_hazards.md rules R360, R361).
-/

namespace Sys2Proof.Machine

/-! ## Creation and load -/

/-- create(rom) (rule R360): the fill, then the font, then the ROM, then the registers. With a ROM of
more than 3584 bytes no machine exists, and what is returned is RomTooLarge with the length, code 6 of
rule R311 (rule R361). -/
def create (cfg : Config) (rom : List Byte) : Except Reply State :=
  if romMax < rom.length then .error (.romTooLarge rom.length)
  else
    let filled : Memory := cfg.memFill
    let fonted := filled.writeAll 0 cfg.font.toList
    .ok { State.reset with cfg := cfg, mem := fonted.writeAll romBase rom }

/-- load(rom) as a command (rules R84, R85, R337): refused once a step has been performed, whatever
the length (DESIGN CHOICE, safe: log entry 9); RomTooLarge leaves memory unchanged. -/
def load (rom : List Byte) (s : State) : State :=
  if s.stepped then { s with reply := .loadRefused }
  else if romMax < rom.length then { s with reply := .romTooLarge rom.length }
  else { s with mem := s.mem.writeAll romBase rom, reply := .ok }

/-! ## Timers, keypad, run state -/

/-- Decrement, saturating at 0 (rule R330). -/
def countDown (t : Byte) : Byte := if t = 0x00#8 then t else t - 0x01#8

/-- tick (rule R330): both timers, in every run state and whatever FL holds. -/
def tick (s : State) : State :=
  { s with dt := countDown s.dt, st := countDown s.st, reply := .ok }

/-- set_key(k, down) (rule R335). -/
def setKey (k : Nibble) (down : Bool) (s : State) : State :=
  { s with keypad := s.keypad.set k.toNat down k.isLt, reply := .ok }

/-- The run state after pause_toggle (rule R340; no effect in Halted, decision D32). -/
def RunState.toggled : RunState → RunState
  | .running => .paused
  | .paused => .running
  | .halted => .halted

/-- pause_toggle (rule R340). -/
def pauseToggle (s : State) : State := { s with rs := s.rs.toggled, reply := .ok }

/-- quit (rule R340). -/
def quit (s : State) : State := { s with rs := .halted, reply := .ok }

/-! ## Commands -/

/-- What the host may send (rule R347). Reading the state is no command: it changes nothing. -/
inductive Command where
  | step
  | tick
  | setKey (k : Nibble) (down : Bool)
  | pauseToggle
  | quit
  | load (rom : List Byte)
  | reset (rom : List Byte)
  deriving DecidableEq, Repr

/-- The step command as the host sees it: the state after step(), with what it returned in `reply`.
A step that is refused or finds a latched fault changes nothing else (rules R317, R318). -/
def stepCommand (s : State) : State :=
  match step s with
  | .next t => t
  | .fault f => { s with reply := .fault f }
  | .refused _ => { s with reply := .notRunning }

/-- One host command (rule R347): the machine after it, with what it returned in `reply`; or, after a
reset whose ROM is too large, no machine and what creation returned, RomTooLarge with the length
(rules R311, R342, R361). -/
def command : Command → State → Except Reply State
  | .step, s => .ok (stepCommand s)
  | .tick, s => .ok (tick s)
  | .setKey k down, s => .ok (setKey k down s)
  | .pauseToggle, s => .ok (pauseToggle s)
  | .quit, s => .ok (quit s)
  | .load rom, s => .ok (load rom s)
  | .reset rom, s => create s.cfg rom

/-- A sequence of host commands (rules R319, R381); it ends where no machine is left, with what that
command returned. -/
def runCommands : List Command → State → Except Reply State
  | [], s => .ok s
  | c :: cs, s =>
    match command c s with
    | .error r => .error r
    | .ok t => runCommands cs t

/-! ## Read-out -/

/-- The numeric codes of rule R311; a refused load has none. -/
def Reply.code : Reply → Option Nat
  | .ok => some 0
  | .fault (.stackOverflow _) => some 1
  | .fault (.stackUnderflow _) => some 2
  | .fault (.memoryOutOfRange _) => some 3
  | .unsupportedOpcode _ _ => some 4
  | .notRunning => some 5
  | .romTooLarge _ => some 6
  | .loadRefused => none

/-- The display as the host reads it after each step (rule R336). -/
def State.displaySequence (s : State) : List Bool := s.display.sequence

end Sys2Proof.Machine
end

