-- ==== Sys2Proof/Safety.lean ====
section
/-!
DEFINITION. Sys2Proof/Safety.lean: the terms claims use: which parts of the state two states share
(the frame), which registers an instruction reads and writes (spec/10_state.md rule R33), what every
reachable state satisfies, and the pixels a sprite sets.
-/

namespace Sys2Proof

/-! ## Register access (rule R33) -/

/-- The general registers an instruction reads. -/
def Instr.reads : Instr → List Nibble
  | .seImm x _ | .sneImm x _ | .addImm x _ | .shr x _ | .shl x _ => [x]
  | .ldReg _ y => [y]
  | .seReg x y _ | .sneReg x y _ | .orReg x y | .andReg x y | .xorReg x y | .addReg x y
  | .sub x y | .subn x y | .drw x y _ => [x, y]
  | .jpV0 _ => [0x0#4]
  | .cls _ | .ret _ | .jp _ | .call _ | .ldImm _ _ | .ldI _ | .unsupported0 _
  | .unsupported8 _ _ _ | .unsupportedC _ | .unsupportedE _ | .unsupportedF _ => []

/-- The general registers an instruction writes. -/
def Instr.writes : Instr → List Nibble
  | .ldImm x _ | .addImm x _ | .ldReg x _ | .orReg x _ | .andReg x _ | .xorReg x _ => [x]
  | .addReg x _ | .sub x _ | .subn x _ | .shr x _ | .shl x _ => [Machine.regVF, x]
  | .drw _ _ _ => [Machine.regVF]
  | .seImm _ _ | .sneImm _ _ | .seReg _ _ _ | .sneReg _ _ _ | .jpV0 _ | .cls _ | .ret _ | .jp _
  | .call _ | .ldI _ | .unsupported0 _ | .unsupported8 _ _ _ | .unsupportedC _ | .unsupportedE _
  | .unsupportedF _ => []

/-- The unsupported rows of the opcode table (rule R106). -/
def Instr.isUnsupported : Instr → Bool
  | .unsupported0 _ | .unsupported8 _ _ _ | .unsupportedC _ | .unsupportedE _
  | .unsupportedF _ => true
  | .cls _ | .ret _ | .jp _ | .call _ | .seImm _ _ | .sneImm _ _ | .seReg _ _ _ | .ldImm _ _
  | .addImm _ _ | .ldReg _ _ | .orReg _ _ | .andReg _ _ | .xorReg _ _ | .addReg _ _ | .sub _ _
  | .shr _ _ | .subn _ _ | .shl _ _ | .sneReg _ _ _ | .ldI _ | .jpV0 _ | .drw _ _ _ => false

end Sys2Proof

namespace Sys2Proof.Machine

/-! ## Frames -/

/-- The state that no instruction names (rules R40, R41, R44, R46), and the configuration. -/
def KeepsHostSide (s t : State) : Prop :=
  t.cfg = s.cfg ∧ t.dt = s.dt ∧ t.st = s.st ∧ t.keypad = s.keypad ∧ t.rs = s.rs

/-- Memory as a whole, and every byte of it. -/
def KeepsMemory (s t : State) : Prop :=
  t.mem = s.mem ∧ ∀ a, t.mem.read a = s.mem.read a

/-- Every general register but those listed. -/
def KeepsRegsBut (ws : List Nibble) (s t : State) : Prop :=
  ∀ k, k ∉ ws → t.getV k = s.getV k

def KeepsIndex (s t : State) : Prop := t.index = s.index

/-- The call stack: its depth and all its entries. -/
def KeepsStack (s t : State) : Prop := t.sp = s.sp ∧ t.stack = s.stack

def KeepsDisplay (s t : State) : Prop := t.display = s.display

/-- The step returned Ok and raised no fault (FL as before); it counts as performed (log entries 7 and
8). -/
def ReturnsOk (s t : State) : Prop := t.reply = .ok ∧ t.fl = s.fl ∧ t.stepped = true

/-- The frame of an instruction that writes at most pc and the listed registers. -/
def KeepsAllButPcAnd (ws : List Nibble) (s t : State) : Prop :=
  KeepsRegsBut ws s t ∧ KeepsIndex s t ∧ KeepsStack s t ∧ KeepsDisplay s t ∧ KeepsMemory s t ∧
    KeepsHostSide s t ∧ ReturnsOk s t

/-- What the register statement of a flag-writing row reads for register r once the flag f is in VF
(rule R220): under Sequential, f where r is VF. -/
def operandAfterFlag (s : State) (f : Nat) (r : Nibble) : Nat :=
  match s.cfg.operandOrder with
  | .sequential => if r = regVF then f else (s.getV r).toNat
  | .snapshot => (s.getV r).toNat

/-- What an unsupported encoding does (rule R293): pc advances, the reply is Ok under Silent and the
report of the opcode and its address under Strict, FL is as before, the step counts as performed (log
entry 8) and nothing else changes. -/
def OnlyAdvances (opcode : Word) (s t : State) : Prop :=
  t.pc = s.pc + 2#16 ∧ t.fl = s.fl ∧ t.stepped = true ∧
    (s.cfg.unsupportedMode = .silent → t.reply = .ok) ∧
    (s.cfg.unsupportedMode = .strict → t.reply = .unsupportedOpcode opcode s.pc) ∧
    KeepsRegsBut [] s t ∧ KeepsIndex s t ∧ KeepsStack s t ∧ KeepsDisplay s t ∧
    KeepsMemory s t ∧ KeepsHostSide s t

/-- A fault was taken (rule R316): of the spec's state nothing changed but FL, which holds the fault.
Of the model's own fields, `reply` holds the fault that was returned (log entry 7) and `stepped` says
that a step was performed: a step that raises a fault counts (log entry 8, DESIGN CHOICE). -/
def FaultTaken (f : Fault) (s t : State) : Prop :=
  t = { s with fl := some f, reply := .fault f, stepped := true }

/-! ## Sprites -/

/-- The sprite bit that an n-row draw at `s` would place on the display pixel (x, y), the origin
being (x0, y0): bit 7 − (x − x0) of byte y − y0 (rules R263, R264); false where the sprite does not
reach. -/
def spriteBit (s : State) (n x0 y0 x y : Nat) : Bool :=
  decide (x0 ≤ x) && decide (x < x0 + 8) && decide (y0 ≤ y) && decide (y < y0 + n) &&
    (s.mem.read (s.index.toNat + (y - y0))).getLsbD (7 - (x - x0))

/-- Some pixel that the draw sets was lit before it (rule R265). -/
def Collides (s : State) (n x0 y0 : Nat) : Prop :=
  ∃ x y, x < dispW ∧ y < dispH ∧ spriteBit s n x0 y0 x y = true ∧ s.display.pixel x y = true

/-! ## What every reachable state satisfies -/

/-- What a latched fault says of the state that holds it: the step that raised it changed nothing
(rule R316), and the recorded value is the one of rule R311. -/
def State.explains (s : State) : Fault → Prop
  | .stackOverflow a => a = s.pc ∧ s.sp.val = stackDepth
  | .stackUnderflow a => a = s.pc ∧ s.sp.val = 0
  | .memoryOutOfRange a => memSize ≤ a.toNat

/-- The invariant of the machine: memory canonical, the font in place (rule R75), I at most 0x0FFF
(rule R34), pc at most 0x10FE (rule R37), return addresses at most 0x1000 (rule R141), and a latched
fault explained by a state that some step led to (rules R45, R316). -/
structure State.Inv (s : State) : Prop where
  memCanonical : s.mem.wf = true
  fillCanonical : Memory.wf s.cfg.memFill = true
  fontIntact : ∀ a (h : a < fontSize), s.mem.read a = s.cfg.font[a]
  indexInRange : s.index.toNat ≤ 0x0FFF
  pcInRange : s.pc.toNat ≤ 0x10FE
  returnsInRange : ∀ k (h : k < stackDepth), k < s.sp.val → s.stack[k].toNat ≤ 0x1000
  latchExplained : ∀ f, s.fl = some f → s.explains f ∧ s.stepped = true

/-- Everything is as before but the timers, the keypad, the run state and what was last returned: no
step, load or reset took effect. -/
def SameProgramState (s t : State) : Prop :=
  t.cfg = s.cfg ∧ t.mem = s.mem ∧ t.v = s.v ∧ t.index = s.index ∧ t.pc = s.pc ∧
    t.stack = s.stack ∧ t.sp = s.sp ∧ t.display = s.display ∧ t.fl = s.fl

/-- The command reset, the one that creates the machine again (rule R342). -/
def Command.isReset : Command → Bool
  | .reset _ => true
  | .step | .tick | .setKey _ _ | .pauseToggle | .quit | .load _ => false

/-- One instruction after another, from a state to the state after the last. -/
def execAll : List Instr → State → Host.Outcome State Fault Refusal
  | [], s => .next s
  | i :: is, s =>
    match exec i s with
    | .next t => execAll is t
    | .fault f => .fault f
    | .refused r => .refused r

end Sys2Proof.Machine
end

