-- ==== Sys2Proof/Certificates/Slice0/Obligations.lean ====
section
/-!
DEFINITION. Sys2Proof/Certificates/Slice0/Obligations.lean: the statements for the provers, each
about the machine and none about a program. Every statement is about every configuration, because a
state carries its own (rule R10).
-/

open Sys2Proof Sys2Proof.Machine

/-! ## Encoding -/

/-- At least one word of each of the sixteen families 0x0 to 0xF (rules R17, R101), written out bit by
bit from the opcode map (rule R105), decodes to its instruction under the defaults; 8XYE does so under
SHL_SUBOP = 0xE. -/
def Obligations.WordsOfEachFamilyDecode : Prop :=
  decode Config.default 0b0000010111100000#16 = .cls 0x5#4 ∧
  decode Config.default 0b0000000011101110#16 = .ret 0x0#4 ∧
  decode Config.default 0b0001001000110100#16 = .jp 0x234#12 ∧
  decode Config.default 0b0010010101100111#16 = .call 0x567#12 ∧
  decode Config.default 0b0011001100010010#16 = .seImm 0x3#4 0x12#8 ∧
  decode Config.default 0b0100100000010111#16 = .sneImm 0x8#4 0x17#8 ∧
  decode Config.default 0b0101000100101111#16 = .seReg 0x1#4 0x2#4 0xF#4 ∧
  decode Config.default 0b0110101001011011#16 = .ldImm 0xA#4 0x5B#8 ∧
  decode Config.default 0b0111001000011110#16 = .addImm 0x2#4 0x1E#8 ∧
  decode Config.default 0b1000000000010100#16 = .addReg 0x0#4 0x1#4 ∧
  decode Config.default 0b1000010000001000#16 = .shl 0x4#4 0x0#4 ∧
  decode { Config.default with shlSubop := .nE } 0b1000010000001110#16 = .shl 0x4#4 0x0#4 ∧
  decode Config.default 0b1001011110000011#16 = .sneReg 0x7#4 0x8#4 0x3#4 ∧
  decode Config.default 0b1010000100100011#16 = .ldI 0x123#12 ∧
  decode Config.default 0b1011001111000101#16 = .jpV0 0x3C5#12 ∧
  decode Config.default 0b1100010000001111#16 = .unsupportedC 0x40F#12 ∧
  decode Config.default 0b1101000100100011#16 = .drw 0x1#4 0x2#4 0x3#4 ∧
  decode Config.default 0b1110000110011110#16 = .unsupportedE 0x19E#12 ∧
  decode Config.default 0b1111000000101001#16 = .unsupportedF 0x029#12

/-- Rules R101 and R104: the fields are the bits the rule gives, here as quotients and remainders of
the opcode read as a number, and the instruction is the one of the first line of the dispatch table
whose condition holds. -/
def Obligations.DecodeFollowsDispatchTable : Prop :=
  ∀ (cfg : Config) (w : Word),
    let F := w.toNat / 4096
    let X := BitVec.ofNat 4 (w.toNat / 256 % 16)
    let Y := BitVec.ofNat 4 (w.toNat / 16 % 16)
    let N := w.toNat % 16
    let NN := w.toNat % 256
    let NNN := BitVec.ofNat 12 (w.toNat % 4096)
    decode cfg w =
      if F = 0x0 then
        if NN = 0xE0 then .cls X else if NN = 0xEE then .ret X else .unsupported0 NNN
      else if F = 0x1 then .jp NNN
      else if F = 0x2 then .call NNN
      else if F = 0x3 then .seImm X (BitVec.ofNat 8 NN)
      else if F = 0x4 then .sneImm X (BitVec.ofNat 8 NN)
      else if F = 0x5 then .seReg X Y (BitVec.ofNat 4 N)
      else if F = 0x6 then .ldImm X (BitVec.ofNat 8 NN)
      else if F = 0x7 then .addImm X (BitVec.ofNat 8 NN)
      else if F = 0x8 then
        if N = 0x0 then .ldReg X Y
        else if N = 0x1 then .orReg X Y
        else if N = 0x2 then .andReg X Y
        else if N = 0x3 then .xorReg X Y
        else if N = 0x4 then .addReg X Y
        else if N = 0x5 then .sub X Y
        else if N = 0x6 then .shr X Y
        else if N = 0x7 then .subn X Y
        else if N = (match cfg.shlSubop with | .n8 => 0x8 | .nE => 0xE) then .shl X Y
        else .unsupported8 X Y (BitVec.ofNat 4 N)
      else if F = 0x9 then .sneReg X Y (BitVec.ofNat 4 N)
      else if F = 0xA then .ldI NNN
      else if F = 0xB then .jpV0 NNN
      else if F = 0xC then .unsupportedC NNN
      else if F = 0xD then .drw X Y (BitVec.ofNat 4 N)
      else if F = 0xE then .unsupportedE NNN
      else .unsupportedF NNN

/-- Decoding the opcode of a well-formed instruction gives it back, with every operand. -/
def Obligations.DecodeOfEncodeIsTheInstruction : Prop :=
  ∀ (cfg : Config) (i : Instr), i.wf cfg = true → decode cfg (encode cfg i) = i

/-- Every opcode decodes to a well-formed instruction whose opcode is that very word: decoding loses
no bit, and no two instructions share a word. -/
def Obligations.EncodeOfDecodeIsTheWord : Prop :=
  ∀ (cfg : Config) (w : Word), (decode cfg w).wf cfg = true ∧ encode cfg (decode cfg w) = w

/-- Rule R106 (the spec's decisions D2, D3): the unsupported opcodes are exactly all of families
0xC, 0xE and 0xF, the opcodes of family 0x0 with NN other than 0xE0 and 0xEE, and those of family
0x8 with N other than 0x0..0x7 and SHL_SUBOP. -/
def Obligations.UnsupportedOpcodesAreExactlyThese : Prop :=
  ∀ (cfg : Config) (w : Word),
    (decode cfg w).isUnsupported = true ↔
      (w.toNat / 4096 = 0xC ∨ w.toNat / 4096 = 0xE ∨ w.toNat / 4096 = 0xF) ∨
      (w.toNat / 4096 = 0x0 ∧ w.toNat % 256 ≠ 0xE0 ∧ w.toNat % 256 ≠ 0xEE) ∨
      (w.toNat / 4096 = 0x8 ∧ 0x7 < w.toNat % 16 ∧ w.toNat % 16 ≠ cfg.shlSubop.nibble.toNat)

/-- Rule R107 (the spec's decisions D21, D22): two opcodes that differ only in an ignored field do
the same in every state: X of CLS and RET, N of SE_reg and SNE_reg, Y of SHR and SHL. -/
def Obligations.IgnoredFieldsChangeNothing : Prop :=
  ∀ (s : State) (x x' y y' n n' : Nibble),
    exec (decode s.cfg (0x0#4 ++ x ++ 0xE0#8)) s = exec (decode s.cfg (0x0#4 ++ x' ++ 0xE0#8)) s ∧
    exec (decode s.cfg (0x0#4 ++ x ++ 0xEE#8)) s = exec (decode s.cfg (0x0#4 ++ x' ++ 0xEE#8)) s ∧
    exec (decode s.cfg (0x5#4 ++ x ++ y ++ n)) s = exec (decode s.cfg (0x5#4 ++ x ++ y ++ n')) s ∧
    exec (decode s.cfg (0x9#4 ++ x ++ y ++ n)) s = exec (decode s.cfg (0x9#4 ++ x ++ y ++ n')) s ∧
    exec (decode s.cfg (0x8#4 ++ x ++ y ++ 0x6#4)) s =
      exec (decode s.cfg (0x8#4 ++ x ++ y' ++ 0x6#4)) s ∧
    exec (decode s.cfg (0x8#4 ++ x ++ y ++ s.cfg.shlSubop.nibble)) s =
      exec (decode s.cfg (0x8#4 ++ x ++ y' ++ s.cfg.shlSubop.nibble)) s

/-! ## The step -/

/-- Rule R103: while Running with no fault latched, and both bytes at pc in memory, a step is exec
of the instruction those two bytes decode to, high byte first; step adds nothing around it (the
advance of pc is each meaning's own first act). -/
def Obligations.StepRunsTheDecodedInstruction : Prop :=
  ∀ (s : State), s.rs = .running → s.fl = none → s.pc.toNat ≤ 0x0FFE →
    step s =
      exec (decode s.cfg (s.mem.read s.pc.toNat ++ s.mem.read (s.pc.toNat + 1))) s

/-- Rule R73 for the fetch (the spec's decision D7): at pc ≥ 0x0FFF, 0x0FFF itself included, the
step takes MemoryOutOfRange with the lowest out-of-range address: it latches and returns it, and
changes nothing else but the model's own note that a step was performed (log entry 8, DESIGN CHOICE:
a step that raises a fault counts as performed). -/
def Obligations.FetchPastMemoryFaults : Prop :=
  ∀ (s : State), s.rs = .running → s.fl = none → 0x0FFF ≤ s.pc.toNat →
    ∃ t, step s = .next t ∧
      FaultTaken (.memoryOutOfRange (BitVec.ofNat 16 (max s.pc.toNat 0x1000))) s t

/-- Rules R314, R317, R318 (the spec's decisions D11, D12, D25): a step outside Running is refused,
also when a fault is latched; a step in Running with a fault latched returns that fault. As a
command, neither changes anything but what is returned. -/
def Obligations.GatedStepsChangeNothing : Prop :=
  (∀ (s : State), s.rs ≠ .running →
    step s = .refused .notRunning ∧ stepCommand s = { s with reply := .notRunning }) ∧
  (∀ (s : State) (f : Fault), s.rs = .running → s.fl = some f →
    step s = .fault f ∧ stepCommand s = { s with reply := .fault f })

/-- A running machine with no fault latched always answers a step with a next state. A step that
raises a fault (RET at depth 0, CALL at depth 12, a fetch or a draw past memory) is such an answer too:
its next state has the fault latched, and the steps after it return that fault (log entry 7, DESIGN
CHOICE: a raised fault is a next state). -/
def Obligations.RunningStepsAlwaysAnswer : Prop :=
  ∀ (s : State), s.rs = .running → s.fl = none → ∃ t, step s = .next t

/-! ## Family 0x0 -/

/-- Rule R140. -/
def Obligations.ClsClearsTheDisplay : Prop :=
  ∀ (x : Nibble) (s : State),
    decode s.cfg (0x0#4 ++ x ++ 0xE0#8) = .cls x ∧
    ∃ t, exec (.cls x) s = .next t ∧
      (∀ px py, px < dispW → py < dispH → t.display.pixel px py = false) ∧
      t.pc = s.pc + 2#16 ∧ KeepsRegsBut [] s t ∧ KeepsIndex s t ∧ KeepsStack s t ∧
      KeepsMemory s t ∧ KeepsHostSide s t ∧ ReturnsOk s t

/-- Rule R141: with a return address on the stack RET pops it into pc, the entry staying as it is;
with none it takes StackUnderflow with its own address, changing nothing else (decision D10) but the
model's own note that a step was performed (log entry 8, DESIGN CHOICE). -/
def Obligations.RetPopsOrUnderflows : Prop :=
  ∀ (x : Nibble) (s : State),
    decode s.cfg (0x0#4 ++ x ++ 0xEE#8) = .ret x ∧
    (∀ h : 0 < s.sp.val, ∃ t, exec (.ret x) s = .next t ∧
      t.pc = s.stack[s.sp.val - 1]'(Nat.lt_of_lt_of_le (Nat.sub_lt h Nat.one_pos)
        (Nat.le_of_lt_succ s.sp.isLt)) ∧
      t.sp.val + 1 = s.sp.val ∧ t.stack = s.stack ∧
      KeepsRegsBut [] s t ∧ KeepsIndex s t ∧ KeepsDisplay s t ∧ KeepsMemory s t ∧
      KeepsHostSide s t ∧ ReturnsOk s t) ∧
    (s.sp.val = 0 → ∃ t, exec (.ret x) s = .next t ∧ FaultTaken (.stackUnderflow s.pc) s t)

/-! ## Jumps and calls -/

/-- Rule R160. -/
def Obligations.JpJumpsToItsAddress : Prop :=
  ∀ (nnn : Addr12) (s : State),
    decode s.cfg (0x1#4 ++ nnn) = .jp nnn ∧
    ∃ t, exec (.jp nnn) s = .next t ∧ t.pc.toNat = nnn.toNat ∧ KeepsAllButPcAnd [] s t

/-- Rule R161: below full depth CALL stores its own address + 2 in the entry at the old depth,
leaving the other entries, and jumps; at depth 12 it takes StackOverflow with its own address,
changing nothing else but the model's own note that a step was performed (log entry 8, DESIGN
CHOICE). -/
def Obligations.CallPushesOrOverflows : Prop :=
  ∀ (nnn : Addr12) (s : State),
    decode s.cfg (0x2#4 ++ nnn) = .call nnn ∧
    (s.sp.val < 12 → ∃ t, exec (.call nnn) s = .next t ∧ t.pc.toNat = nnn.toNat ∧
      t.sp.val = s.sp.val + 1 ∧
      (∀ k (h : k < stackDepth),
        t.stack[k] = if k = s.sp.val then s.pc + 2#16 else s.stack[k]) ∧
      KeepsRegsBut [] s t ∧ KeepsIndex s t ∧ KeepsDisplay s t ∧ KeepsMemory s t ∧
      KeepsHostSide s t ∧ ReturnsOk s t) ∧
    (s.sp.val = 12 → ∃ t, exec (.call nnn) s = .next t ∧ FaultTaken (.stackOverflow s.pc) s t)

/-- Rule R170 (the spec's decision D9: the sum is not reduced to 12 bits). -/
def Obligations.JpV0AddsRegisterZero : Prop :=
  ∀ (nnn : Addr12) (s : State),
    decode s.cfg (0xB#4 ++ nnn) = .jpV0 nnn ∧
    ∃ t, exec (.jpV0 nnn) s = .next t ∧ t.pc.toNat = (s.getV 0x0#4).toNat + nnn.toNat ∧
      KeepsAllButPcAnd [] s t

/-- Rule R142: a CALL below full depth and then a RET at its target leave pc after the CALL, the
depth as it was, and everything but the entry the CALL wrote. -/
def Obligations.RetUndoesCall : Prop :=
  ∀ (nnn : Addr12) (x : Nibble) (s : State), s.sp.val < 12 →
    ∃ t u, exec (.call nnn) s = .next t ∧ exec (.ret x) t = .next u ∧
      u.pc = s.pc + 2#16 ∧ u.sp = s.sp ∧
      (∀ k (h : k < stackDepth), k ≠ s.sp.val → u.stack[k] = s.stack[k]) ∧
      KeepsRegsBut [] s u ∧ KeepsIndex s u ∧ KeepsDisplay s u ∧ KeepsMemory s u ∧
      KeepsHostSide s u ∧ ReturnsOk s u

/-- Rule R162: from an empty stack, up to 12 nested CALLs (whatever their targets) succeed, the
k-th leaving depth k, and a 13th takes StackOverflow in the state the 12th left, changing nothing
else but the model's own note that a step was performed (log entry 8, DESIGN CHOICE). -/
def Obligations.TwelveCallsSucceedAndTheNextOverflows : Prop :=
  ∀ (targets : List Addr12) (s : State), s.sp.val = 0 →
    (targets.length ≤ 12 → ∃ t, execAll (targets.map .call) s = .next t ∧
      t.sp.val = targets.length ∧ t.fl = s.fl) ∧
    (targets.length = 12 → ∀ nnn, ∃ t u, execAll (targets.map .call) s = .next t ∧
      t.sp.val = 12 ∧ exec (.call nnn) t = .next u ∧ FaultTaken (.stackOverflow t.pc) t u)

/-! ## Skips -/

/-- Rules R180 and R181. -/
def Obligations.ImmediateSkipsSkipOnTheirCondition : Prop :=
  ∀ (x : Nibble) (nn : Byte) (s : State),
    (decode s.cfg (0x3#4 ++ x ++ nn) = .seImm x nn ∧
      ∃ t, exec (.seImm x nn) s = .next t ∧
        t.pc = (if s.getV x = nn then s.pc + 4#16 else s.pc + 2#16) ∧
        KeepsAllButPcAnd [] s t) ∧
    (decode s.cfg (0x4#4 ++ x ++ nn) = .sneImm x nn ∧
      ∃ t, exec (.sneImm x nn) s = .next t ∧
        t.pc = (if s.getV x = nn then s.pc + 2#16 else s.pc + 4#16) ∧
        KeepsAllButPcAnd [] s t)

/-- Rules R182 and R183 (N ignored is the spec's decision D22). -/
def Obligations.RegisterSkipsSkipOnTheirCondition : Prop :=
  ∀ (x y n : Nibble) (s : State),
    (decode s.cfg (0x5#4 ++ x ++ y ++ n) = .seReg x y n ∧
      ∃ t, exec (.seReg x y n) s = .next t ∧
        t.pc = (if s.getV x = s.getV y then s.pc + 4#16 else s.pc + 2#16) ∧
        KeepsAllButPcAnd [] s t) ∧
    (decode s.cfg (0x9#4 ++ x ++ y ++ n) = .sneReg x y n ∧
      ∃ t, exec (.sneReg x y n) s = .next t ∧
        t.pc = (if s.getV x = s.getV y then s.pc + 2#16 else s.pc + 4#16) ∧
        KeepsAllButPcAnd [] s t)

/-! ## Immediate loads and adds -/

/-- Rule R200. -/
def Obligations.LdImmLoadsItsImmediate : Prop :=
  ∀ (x : Nibble) (nn : Byte) (s : State),
    decode s.cfg (0x6#4 ++ x ++ nn) = .ldImm x nn ∧
    ∃ t, exec (.ldImm x nn) s = .next t ∧ t.getV x = nn ∧ t.pc = s.pc + 2#16 ∧
      KeepsAllButPcAnd [x] s t

/-- Rule R201: wrapping, and no register but V[X] (VF is not written as a carry). -/
def Obligations.AddImmWrapsWithoutCarry : Prop :=
  ∀ (x : Nibble) (nn : Byte) (s : State),
    decode s.cfg (0x7#4 ++ x ++ nn) = .addImm x nn ∧
    ∃ t, exec (.addImm x nn) s = .next t ∧
      (t.getV x).toNat = ((s.getV x).toNat + nn.toNat) % 256 ∧ t.pc = s.pc + 2#16 ∧
      KeepsAllButPcAnd [x] s t

/-- Rule R202: 6XNN and then 7XNN2 leave V[X] = (NN + NN2) mod 256. -/
def Obligations.LoadThenAddSums : Prop :=
  ∀ (x : Nibble) (nn nn2 : Byte) (s : State),
    ∃ t u, exec (.ldImm x nn) s = .next t ∧ exec (.addImm x nn2) t = .next u ∧
      (u.getV x).toNat = (nn.toNat + nn2.toNat) % 256 ∧ u.pc = s.pc + 4#16 ∧
      KeepsAllButPcAnd [x] s u

/-- Rule R204. -/
def Obligations.LdILoadsTheIndex : Prop :=
  ∀ (nnn : Addr12) (s : State),
    decode s.cfg (0xA#4 ++ nnn) = .ldI nnn ∧
    ∃ t, exec (.ldI nnn) s = .next t ∧ t.index.toNat = nnn.toNat ∧ t.pc = s.pc + 2#16 ∧
      KeepsRegsBut [] s t ∧ KeepsStack s t ∧ KeepsDisplay s t ∧ KeepsMemory s t ∧
      KeepsHostSide s t ∧ ReturnsOk s t

/-! ## Register-register ALU -/

/-- Rules R221 to R224: the result in V[X], VF not reset. -/
def Obligations.MovesAndLogicWriteOnlyTheirResult : Prop :=
  ∀ (x y : Nibble) (s : State),
    (decode s.cfg (0x8#4 ++ x ++ y ++ 0x0#4) = .ldReg x y ∧
      ∃ t, exec (.ldReg x y) s = .next t ∧ t.getV x = s.getV y ∧
        t.pc = s.pc + 2#16 ∧ KeepsAllButPcAnd [x] s t) ∧
    (decode s.cfg (0x8#4 ++ x ++ y ++ 0x1#4) = .orReg x y ∧
      ∃ t, exec (.orReg x y) s = .next t ∧
        (∀ b, (t.getV x).getLsbD b = ((s.getV x).getLsbD b || (s.getV y).getLsbD b)) ∧
        t.pc = s.pc + 2#16 ∧ KeepsAllButPcAnd [x] s t) ∧
    (decode s.cfg (0x8#4 ++ x ++ y ++ 0x2#4) = .andReg x y ∧
      ∃ t, exec (.andReg x y) s = .next t ∧
        (∀ b, (t.getV x).getLsbD b = ((s.getV x).getLsbD b && (s.getV y).getLsbD b)) ∧
        t.pc = s.pc + 2#16 ∧ KeepsAllButPcAnd [x] s t) ∧
    (decode s.cfg (0x8#4 ++ x ++ y ++ 0x3#4) = .xorReg x y ∧
      ∃ t, exec (.xorReg x y) s = .next t ∧
        (∀ b, (t.getV x).getLsbD b = ((s.getV x).getLsbD b ^^ (s.getV y).getLsbD b)) ∧
        t.pc = s.pc + 2#16 ∧ KeepsAllButPcAnd [x] s t)

/-- Rule R225, both operand orders: VF is the carry unless X is F, and V[X] is the sum of the
operands as the order reads them. -/
def Obligations.AddRegSetsCarryThenSum : Prop :=
  ∀ (x y : Nibble) (s : State),
    decode s.cfg (0x8#4 ++ x ++ y ++ 0x4#4) = .addReg x y ∧
    ∃ t, exec (.addReg x y) s = .next t ∧
      (let f := if (s.getV x).toNat + (s.getV y).toNat > 255 then 1 else 0
       (t.getV x).toNat = (operandAfterFlag s f x + operandAfterFlag s f y) % 256 ∧
       (x ≠ 0xF#4 → (t.getV 0xF#4).toNat = f)) ∧
      t.pc = s.pc + 2#16 ∧ KeepsAllButPcAnd [0xF#4, x] s t

/-- Rule R226, both operand orders: VF = 1 exactly when V[Y] > V[X], unless X is F. -/
def Obligations.SubSetsBorrowThenDifference : Prop :=
  ∀ (x y : Nibble) (s : State),
    decode s.cfg (0x8#4 ++ x ++ y ++ 0x5#4) = .sub x y ∧
    ∃ t, exec (.sub x y) s = .next t ∧
      (let f := if (s.getV y).toNat > (s.getV x).toNat then 1 else 0
       (t.getV x).toNat = (operandAfterFlag s f x + 256 - operandAfterFlag s f y) % 256 ∧
       (x ≠ 0xF#4 → (t.getV 0xF#4).toNat = f)) ∧
      t.pc = s.pc + 2#16 ∧ KeepsAllButPcAnd [0xF#4, x] s t

/-- Rule R227, both operand orders: VF = bit 0 of V[X] unless X is F; V[X] halved, bit 7 clear; V[Y]
plays no part. -/
def Obligations.ShrSetsLowBitThenHalves : Prop :=
  ∀ (x y : Nibble) (s : State),
    decode s.cfg (0x8#4 ++ x ++ y ++ 0x6#4) = .shr x y ∧
    ∃ t, exec (.shr x y) s = .next t ∧
      (let f := (s.getV x).toNat % 2
       (t.getV x).toNat = operandAfterFlag s f x / 2 ∧
       (x ≠ 0xF#4 → (t.getV 0xF#4).toNat = f)) ∧
      t.pc = s.pc + 2#16 ∧ KeepsAllButPcAnd [0xF#4, x] s t

/-- Rule R228, both operand orders: VF = 1 exactly when V[Y] < V[X], unless X is F. -/
def Obligations.SubnSetsBorrowThenDifference : Prop :=
  ∀ (x y : Nibble) (s : State),
    decode s.cfg (0x8#4 ++ x ++ y ++ 0x7#4) = .subn x y ∧
    ∃ t, exec (.subn x y) s = .next t ∧
      (let f := if (s.getV y).toNat < (s.getV x).toNat then 1 else 0
       (t.getV x).toNat = (operandAfterFlag s f y + 256 - operandAfterFlag s f x) % 256 ∧
       (x ≠ 0xF#4 → (t.getV 0xF#4).toNat = f)) ∧
      t.pc = s.pc + 2#16 ∧ KeepsAllButPcAnd [0xF#4, x] s t

/-- Rule R229, both operand orders and both sub-opcodes (decision D5): VF = bit 7 of V[X] unless X
is F; V[X] doubled modulo 256. -/
def Obligations.ShlSetsHighBitThenDoubles : Prop :=
  ∀ (x y : Nibble) (s : State),
    decode s.cfg (0x8#4 ++ x ++ y ++ s.cfg.shlSubop.nibble) = .shl x y ∧
    ∃ t, exec (.shl x y) s = .next t ∧
      (let f := (s.getV x).toNat / 128
       (t.getV x).toNat = 2 * operandAfterFlag s f x % 256 ∧
       (x ≠ 0xF#4 → (t.getV 0xF#4).toNat = f)) ∧
      t.pc = s.pc + 2#16 ∧ KeepsAllButPcAnd [0xF#4, x] s t

/-! ## Sprite draw -/

/-- Rules R260, R261, R263 to R267 (the order of the reads is the spec's decision D18, the draw of
height 0 its decision D20): where the sprite's bytes lie in memory, or the height is 0, every pixel
becomes its old value xor the sprite bit that lands on it, and VF is 1 exactly when a set sprite bit
met a lit pixel. -/
def Obligations.DrwXorsTheClippedSprite : Prop :=
  ∀ (x y n : Nibble) (s : State), n.toNat = 0 ∨ s.index.toNat + n.toNat ≤ 0x1000 →
    decode s.cfg (0xD#4 ++ x ++ y ++ n) = .drw x y n ∧
    ∃ t, exec (.drw x y n) s = .next t ∧
      (let x0 := (s.getV x).toNat % 64
       let y0 := (s.getV y).toNat % 32
       (∀ px py, px < dispW → py < dispH → t.display.pixel px py =
         (s.display.pixel px py ^^ spriteBit s n.toNat x0 y0 px py)) ∧
       (Collides s n.toNat x0 y0 → t.getV 0xF#4 = 0x01#8) ∧
       (¬ Collides s n.toNat x0 y0 → t.getV 0xF#4 = 0x00#8)) ∧
      t.pc = s.pc + 2#16 ∧ KeepsRegsBut [0xF#4] s t ∧ KeepsIndex s t ∧ KeepsStack s t ∧
      KeepsMemory s t ∧ KeepsHostSide s t ∧ ReturnsOk s t

/-- Rule R262 (the spec's decisions D7, D19): a draw whose byte range leaves memory, rows that
clipping would drop included, takes MemoryOutOfRange: it latches and returns it, and changes nothing
else but the model's own note that a step was performed (log entry 8, DESIGN CHOICE). -/
def Obligations.DrwPastMemoryFaults : Prop :=
  ∀ (x y n : Nibble) (s : State), 0 < n.toNat → 0x1000 < s.index.toNat + n.toNat →
    ∃ t, exec (.drw x y n) s = .next t ∧
      FaultTaken (.memoryOutOfRange (BitVec.ofNat 16 (max s.index.toNat 0x1000))) s t

/-- Rule R268: from a clear display, the same draw twice, with neither coordinate in VF, leaves it
clear; the first draw leaves VF = 0, the second VF = 1 exactly when some set sprite bit fell inside
the display. -/
def Obligations.DrawingTwiceErases : Prop :=
  ∀ (x y n : Nibble) (s : State), x ≠ 0xF#4 → y ≠ 0xF#4 →
    (n.toNat = 0 ∨ s.index.toNat + n.toNat ≤ 0x1000) →
    (∀ px py, px < dispW → py < dispH → s.display.pixel px py = false) →
    ∃ t u, exec (.drw x y n) s = .next t ∧ exec (.drw x y n) t = .next u ∧
      (∀ px py, px < dispW → py < dispH → u.display.pixel px py = false) ∧
      t.getV 0xF#4 = 0x00#8 ∧
      (let drawn := ∃ px py, px < dispW ∧ py < dispH ∧
         spriteBit s n.toNat ((s.getV x).toNat % 64) ((s.getV y).toNat % 32) px py = true
       (drawn → u.getV 0xF#4 = 0x01#8) ∧ (¬ drawn → u.getV 0xF#4 = 0x00#8))

/-! ## Unsupported encodings -/

/-- Rules R144, R240, R290 to R293 (decisions D2, D3, D23): an unsupported opcode of any of the five
rows only advances pc; it returns Ok under Silent and reports its own opcode and address under
Strict, latching no fault and changing nothing else but the model's own note that a step was performed
(log entry 8). -/
def Obligations.UnsupportedOpcodesOnlyAdvance : Prop :=
  ∀ (nnn : Addr12) (x y n : Nibble) (s : State),
    (∃ t, exec (.unsupported0 nnn) s = .next t ∧ OnlyAdvances (0x0#4 ++ nnn) s t) ∧
    (∃ t, exec (.unsupported8 x y n) s = .next t ∧
      OnlyAdvances (0x8#4 ++ x ++ y ++ n) s t) ∧
    (∃ t, exec (.unsupportedC nnn) s = .next t ∧ OnlyAdvances (0xC#4 ++ nnn) s t) ∧
    (∃ t, exec (.unsupportedE nnn) s = .next t ∧ OnlyAdvances (0xE#4 ++ nnn) s t) ∧
    (∃ t, exec (.unsupportedF nnn) s = .next t ∧ OnlyAdvances (0xF#4 ++ nnn) s t)

/-! ## Whole-machine rules -/

/-- Rule R79: no instruction writes memory, and so no step does. -/
def Obligations.NoInstructionWritesMemory : Prop :=
  (∀ (i : Instr) (s t : State), exec i s = .next t → KeepsMemory s t) ∧
  (∀ (s t : State), step s = .next t → KeepsMemory s t)

/-- Rules R40, R41, R44 and R321: no instruction and no step writes the timers, the keypad or the run
state (nor the configuration). -/
def Obligations.NoInstructionWritesTheHostSide : Prop :=
  (∀ (i : Instr) (s t : State), exec i s = .next t → KeepsHostSide s t) ∧
  (∀ (s t : State), step s = .next t → KeepsHostSide s t)

/-- Rule R49: what the timers and the keypad hold has no influence on a step. -/
def Obligations.TimersAndKeypadAreNotObserved : Prop :=
  ∀ (s : State) (dt st : Byte) (keypad : Vector Bool 16),
    step { s with dt := dt, st := st, keypad := keypad } =
      match step s with
      | .next t => .next { t with dt := dt, st := st, keypad := keypad }
      | .fault f => .fault f
      | .refused r => .refused r

/-- Rule R33, writes: an instruction changes no general register outside its row of the table. -/
def Obligations.RegistersOutsideTheWriteSetAreKept : Prop :=
  ∀ (i : Instr) (s t : State), exec i s = .next t → KeepsRegsBut i.writes s t

/-- Rule R33, reads: two states that differ only in general registers outside the instruction's row
lead to states that differ only in general registers, and not in those the instruction writes. -/
def Obligations.RegistersOutsideTheReadSetAreNotObserved : Prop :=
  ∀ (i : Instr) (s t t' : State) (v' : Vector Byte 16),
    (∀ k ∈ i.reads, ({ s with v := v' } : State).getV k = s.getV k) →
    exec i s = .next t → exec i { s with v := v' } = .next t' →
    t' = { t with v := t'.v } ∧
      ((∀ f, t.reply ≠ .fault f) → ∀ k ∈ i.writes, t'.getV k = t.getV k)

/-- Rules R34, R39 and R42: only LD_I changes I, only CALL and RET the call stack, only CLS and DRW
the display. -/
def Obligations.IndexStackAndDisplayHaveTheirWriters : Prop :=
  ∀ (i : Instr) (s t : State), exec i s = .next t →
    (t.index ≠ s.index → ∃ nnn, i = .ldI nnn) ∧
    (¬ KeepsStack s t → (∃ nnn, i = .call nnn) ∨ ∃ x, i = .ret x) ∧
    (t.display ≠ s.display → (∃ x, i = .cls x) ∨ ∃ x y n, i = .drw x y n)

/-- Rule R35: an instruction that does not fault leaves pc at its address + 2, at + 4 (a skip taken),
at NNN (JP, CALL), at V[0] + NNN (JP_V0) or at the popped return address (RET). -/
def Obligations.PcGoesWhereTheInstructionSays : Prop :=
  ∀ (i : Instr) (s t : State), exec i s = .next t → (∀ f, t.reply ≠ .fault f) →
    match i with
    | .seImm _ _ | .sneImm _ _ | .seReg _ _ _ | .sneReg _ _ _ =>
      t.pc = s.pc + 2#16 ∨ t.pc = s.pc + 4#16
    | .jp nnn | .call nnn => t.pc.toNat = nnn.toNat
    | .jpV0 nnn => t.pc.toNat = (s.getV 0x0#4).toNat + nnn.toNat
    | .ret _ => ∃ k, ∃ h : k < stackDepth, k + 1 = s.sp.val ∧ t.pc = s.stack[k]
    | .cls _ | .ldImm _ _ | .addImm _ _ | .ldReg _ _ | .orReg _ _ | .andReg _ _ | .xorReg _ _
    | .addReg _ _ | .sub _ _ | .shr _ _ | .subn _ _ | .shl _ _ | .ldI _ | .drw _ _ _
    | .unsupported0 _ | .unsupported8 _ _ _ | .unsupportedC _ | .unsupportedE _
    | .unsupportedF _ => t.pc = s.pc + 2#16

/-- Rule R312: the only faults an instruction raises are StackOverflow by CALL at depth 12,
StackUnderflow by RET at depth 0 and MemoryOutOfRange by DRW, each with its recorded value. -/
def Obligations.OnlyCallRetAndDrwFault : Prop :=
  ∀ (i : Instr) (s t : State) (f : Fault), exec i s = .next t → t.reply = .fault f →
    ((∃ nnn, i = .call nnn) ∧ s.sp.val = 12 ∧ f = .stackOverflow s.pc) ∨
    ((∃ x, i = .ret x) ∧ s.sp.val = 0 ∧ f = .stackUnderflow s.pc) ∨
    (∃ x y n, i = .drw x y n ∧ 0 < n.toNat ∧ 0x1000 < s.index.toNat + n.toNat ∧
      f = .memoryOutOfRange (BitVec.ofNat 16 (max s.index.toNat 0x1000)))

/-- Rule R316 (the spec's decision D10): a step that latches a fault changes nothing else of the spec's
state, pc included, only what was returned and the model's own note that a step was performed (log
entry 8, DESIGN CHOICE: a step that raises a fault counts as performed); every other step leaves no
fault latched and does not return one. -/
def Obligations.FaultsArePrecise : Prop :=
  ∀ (s t : State), s.fl = none → step s = .next t →
    (∀ f, t.fl = some f → FaultTaken f s t) ∧ (t.fl = none → ∀ f, t.reply ≠ .fault f)

/-! ## Invariants -/

/-- The state after reset meets the machine's invariant. -/
def Obligations.ResetMeetsTheInvariant : Prop := State.reset.Inv

/-- Every step keeps the invariant: memory canonical, the font in place, I ≤ 0x0FFF (rule R34),
pc ≤ 0x10FE (rule R37), return addresses ≤ 0x1000 (rule R141), and a latched fault explained by the
state (rules R311, R316). -/
def Obligations.EveryStepKeepsTheInvariant : Prop :=
  ∀ (s t : State), s.Inv → step s = .next t → t.Inv

/-- Creation from a canonical fill meets the invariant, and from every state that meets it every
sequence of host commands, in any order, leads to one that does, as long as the machine exists. -/
def Obligations.EveryCommandSequenceKeepsTheInvariant : Prop :=
  (∀ (cfg : Config) (rom : List Byte) (s : State),
    Memory.wf cfg.memFill = true → create cfg rom = .ok s → s.Inv) ∧
  (∀ (s t : State) (cs : List Command), s.Inv → runCommands cs s = .ok t → t.Inv)

/-- Rules R45 and R317 (the spec's decision D11): once a fault is latched, no sequence of commands
without a reset clears it or changes anything but the timers, the keypad, the run state and what was
last returned. A load among them is refused: rule R85 (the spec's decision D16) for a machine that has
made a step, as one with a latched fault has (log entry 8, DESIGN CHOICE: a step that raises a fault
counts as performed; the invariant carries it). -/
def Obligations.LatchedFaultStaysUntilReset : Prop :=
  ∀ (s t : State) (f : Fault) (cs : List Command), s.Inv → s.fl = some f →
    (∀ c ∈ cs, c.isReset = false) → runCommands cs s = .ok t →
    t.fl = some f ∧ SameProgramState s t

/-- Rule R340: Halted is left by reset only, and while it lasts a machine that has made a step keeps
its program state (before the first step a load may still write memory, rule R85). -/
def Obligations.HaltedStaysUntilReset : Prop :=
  ∀ (s t : State) (cs : List Command), s.rs = .halted →
    (∀ c ∈ cs, c.isReset = false) → runCommands cs s = .ok t →
    t.rs = .halted ∧ (s.stepped = true → SameProgramState s t)

/-! ## Reset, creation and load -/

/-- Rule R48 for what the spec gives: the registers, I, the timers, the depth, the keypad, the
display, pc, the run state and the latch (those of I, SP, DT, ST, K and D are the spec's decision
D13). -/
def Obligations.ResetLeavesTheStatedValues : Prop :=
  (∀ k, State.reset.getV k = 0x00#8) ∧ State.reset.index = 0x0000#16 ∧
  State.reset.pc = 0x0200#16 ∧ State.reset.sp.val = 0 ∧ State.reset.dt = 0x00#8 ∧
  State.reset.st = 0x00#8 ∧ (∀ k (h : k < 16), State.reset.keypad[k] = false) ∧
  (∀ px py, State.reset.display.pixel px py = false) ∧ State.reset.rs = .running ∧
  State.reset.fl = none

/-- The memory of State.reset: the conventional font (log entry 3, PRESUMED: the spec's rule R76 is
from general knowledge) and 0x00 everywhere else (log entry 2, DESIGN CHOICE: the spec leaves
MEM_FILL open); State.reset is the machine created with no ROM under the default configuration. -/
def Obligations.ResetMemoryIsFontAndZeroFill : Prop :=
  (∀ a, State.reset.mem.read a =
    if h : a < fontSize then conventionalFont[a] else 0x00#8) ∧
  create Config.default [] = .ok State.reset

/-- Rule R360: creation leaves the font at 0x000..0x04F, the ROM from 0x200 and the fill in every
other byte, whatever the configuration, and the registers as at reset; it returns Ok. -/
def Obligations.CreationLaysOutMemory : Prop :=
  ∀ (cfg : Config) (rom : List Byte), Memory.wf cfg.memFill = true → rom.length ≤ 3584 →
    ∃ s, create cfg rom = .ok s ∧
      (∀ a, a < memSize → s.mem.read a =
        if h : a < fontSize then cfg.font[a]
        else if 0x200 ≤ a ∧ a < 0x200 + rom.length then rom.getD (a - 0x200) 0x00#8
        else Memory.read cfg.memFill a) ∧
      s.cfg = cfg ∧ (∀ k, s.getV k = 0x00#8) ∧ s.index = 0x0000#16 ∧ s.pc = 0x0200#16 ∧
      s.sp.val = 0 ∧ s.dt = 0x00#8 ∧ s.st = 0x00#8 ∧
      (∀ k (h : k < 16), s.keypad[k] = false) ∧ (∀ px py, s.display.pixel px py = false) ∧
      s.rs = .running ∧ s.fl = none ∧ s.reply = .ok

/-- Rule R84, before any step: a ROM of at most 3584 bytes is copied from 0x200 and nothing else
changes; a longer one is answered RomTooLarge with memory unchanged. -/
def Obligations.LoadCopiesTheRomOrIsTooLarge : Prop :=
  ∀ (rom : List Byte) (s : State), s.mem.wf = true → s.stepped = false →
    ∃ t, command (.load rom) s = .ok t ∧
      (rom.length ≤ 3584 →
        t = { s with mem := t.mem, reply := .ok } ∧ t.mem.wf = true ∧
        ∀ a, t.mem.read a =
          if 0x200 ≤ a ∧ a < 0x200 + rom.length then rom.getD (a - 0x200) 0x00#8
          else s.mem.read a) ∧
      (3584 < rom.length → t = { s with reply := .romTooLarge rom.length })

/-- Rules R85, R311 and R361 (the spec's decisions D16, D35): a load after a step has been performed is
refused with no state change (whatever the length: log entry 9, DESIGN CHOICE); creation from a ROM of
more than 3584 bytes, and so a reset with one in whatever state, gives no machine and returns
RomTooLarge with the length. -/
def Obligations.LateLoadsAreRefusedAndLongRomsAbort : Prop :=
  (∀ (rom : List Byte) (s : State), s.stepped = true →
    command (.load rom) s = .ok { s with reply := .loadRefused }) ∧
  (∀ (cfg : Config) (rom : List Byte), 3584 < rom.length →
    create cfg rom = .error (.romTooLarge rom.length)) ∧
  (∀ (rom : List Byte) (s : State), 3584 < rom.length →
    command (.reset rom) s = .error (.romTooLarge rom.length))

/-- Rule R342 (the spec's decision D29): reset is accepted in every state and creates the machine
again under its own configuration: no fault latched, Running, at 0x200, Ok returned, no step performed
(log entry 8). -/
def Obligations.ResetCreatesTheMachineAgain : Prop :=
  ∀ (rom : List Byte) (s : State), rom.length ≤ 3584 →
    ∃ t, command (.reset rom) s = .ok t ∧ create s.cfg rom = .ok t ∧ t.fl = none ∧
      t.rs = .running ∧ t.pc = 0x0200#16 ∧ t.reply = .ok ∧ t.stepped = false ∧ t.cfg = s.cfg

/-! ## The other host commands -/

/-- Rule R330: tick decrements both timers, saturating at 0, and touches nothing else, in every run
state and whatever FL holds. -/
def Obligations.TickCountsBothTimersDown : Prop :=
  ∀ (s : State), ∃ t, command .tick s = .ok t ∧ t.dt.toNat = s.dt.toNat - 1 ∧
    t.st.toNat = s.st.toNat - 1 ∧ t = { s with dt := t.dt, st := t.st, reply := .ok }

/-- Rule R335 (the spec's decision D36): set_key writes one key and nothing else. -/
def Obligations.SetKeyWritesOneKey : Prop :=
  ∀ (k : Nibble) (down : Bool) (s : State), ∃ t, command (.setKey k down) s = .ok t ∧
    (∀ j (h : j < 16), t.keypad[j] = if j = k.toNat then down else s.keypad[j]) ∧
    t = { s with keypad := t.keypad, reply := .ok }

/-- Rule R340 (Halted kept by pause_toggle is the spec's decision D32): the run-state commands, which
touch nothing else. -/
def Obligations.RunStateFollowsTheTable : Prop :=
  ∀ (s : State),
    (∃ t, command .pauseToggle s = .ok t ∧
      (s.rs = .running → t.rs = .paused) ∧ (s.rs = .paused → t.rs = .running) ∧
      (s.rs = .halted → t.rs = .halted) ∧ t = { s with rs := t.rs, reply := .ok }) ∧
    command .quit s = .ok { s with rs := .halted, reply := .ok }

/-- Rules R42 and R336: the sequence the host reads has 2048 elements, and D[y][x] is its element
y·64 + x. -/
def Obligations.DisplayIsReadRowMajor : Prop :=
  ∀ (s : State), s.displaySequence.length = 2048 ∧
    ∀ px py, px < 64 → py < 32 →
      s.displaySequence[py * 64 + px]? = some (s.display.pixel px py)
end

