-- ==== Sys2Proof/Laws/Decode.lean ====
section
/-!
SUPPORT. Sys2Proof/Laws/Decode.lean: the fields of an opcode as numbers, the fields of an opcode
written as a concatenation, and an opcode as the concatenation of its fields (spec/30_encoding.md
rules R101, R105).
-/

namespace Sys2Proof

/-! ## Fields as numbers -/

theorem fieldF_toNat (w : Word) : (fieldF w).toNat = w.toNat / 4096 := by
  simp only [fieldF, BitVec.extractLsb'_toNat, Nat.shiftRight_eq_div_pow]
  have := w.isLt
  omega

theorem fieldX_toNat (w : Word) : (fieldX w).toNat = w.toNat / 256 % 16 := by
  simp only [fieldX, BitVec.extractLsb'_toNat, Nat.shiftRight_eq_div_pow]

theorem fieldY_toNat (w : Word) : (fieldY w).toNat = w.toNat / 16 % 16 := by
  simp only [fieldY, BitVec.extractLsb'_toNat, Nat.shiftRight_eq_div_pow]

theorem fieldN_toNat (w : Word) : (fieldN w).toNat = w.toNat % 16 := by
  simp [fieldN, BitVec.extractLsb'_toNat]

theorem fieldNN_toNat (w : Word) : (fieldNN w).toNat = w.toNat % 256 := by
  simp [fieldNN, BitVec.extractLsb'_toNat]

theorem fieldNNN_toNat (w : Word) : (fieldNNN w).toNat = w.toNat % 4096 := by
  simp [fieldNNN, BitVec.extractLsb'_toNat]

/-! ## Concatenations as numbers -/

theorem toNat_append_nnn (f : Nibble) (nnn : Addr12) :
    (f ++ nnn : Word).toNat = f.toNat * 4096 + nnn.toNat := by
  have := nnn.isLt
  rw [BitVec.toNat_append, ← Nat.shiftLeft_add_eq_or_of_lt nnn.isLt, Nat.shiftLeft_eq]

theorem toNat_append_x_nn (f x : Nibble) (nn : Byte) :
    (f ++ x ++ nn : Word).toNat = f.toNat * 4096 + x.toNat * 256 + nn.toNat := by
  rw [BitVec.toNat_append, BitVec.toNat_append, ← Nat.shiftLeft_add_eq_or_of_lt x.isLt,
    ← Nat.shiftLeft_add_eq_or_of_lt nn.isLt, Nat.shiftLeft_eq, Nat.shiftLeft_eq]
  omega

theorem toNat_append_x_y_n (f x y n : Nibble) :
    (f ++ x ++ y ++ n : Word).toNat =
      f.toNat * 4096 + x.toNat * 256 + y.toNat * 16 + n.toNat := by
  rw [BitVec.toNat_append, BitVec.toNat_append, BitVec.toNat_append,
    ← Nat.shiftLeft_add_eq_or_of_lt x.isLt, ← Nat.shiftLeft_add_eq_or_of_lt y.isLt,
    ← Nat.shiftLeft_add_eq_or_of_lt n.isLt, Nat.shiftLeft_eq, Nat.shiftLeft_eq, Nat.shiftLeft_eq]
  omega

/-! ## Fields of concatenations -/

section
variable (f x y n : Nibble) (nn : Byte) (nnn : Addr12)

@[simp] theorem fieldF_nnn : fieldF (f ++ nnn) = f := by
  apply BitVec.eq_of_toNat_eq
  have := nnn.isLt
  rw [fieldF_toNat, toNat_append_nnn]; omega

@[simp] theorem fieldNNN_nnn : fieldNNN (f ++ nnn) = nnn := by
  apply BitVec.eq_of_toNat_eq
  have := nnn.isLt
  rw [fieldNNN_toNat, toNat_append_nnn]; omega

@[simp] theorem fieldF_x_nn : fieldF (f ++ x ++ nn) = f := by
  apply BitVec.eq_of_toNat_eq
  have := x.isLt
  have := nn.isLt
  rw [fieldF_toNat, toNat_append_x_nn]; omega

@[simp] theorem fieldX_x_nn : fieldX (f ++ x ++ nn) = x := by
  apply BitVec.eq_of_toNat_eq
  have := x.isLt
  have := nn.isLt
  rw [fieldX_toNat, toNat_append_x_nn]; omega

@[simp] theorem fieldNN_x_nn : fieldNN (f ++ x ++ nn) = nn := by
  apply BitVec.eq_of_toNat_eq
  have := nn.isLt
  rw [fieldNN_toNat, toNat_append_x_nn]; omega

@[simp] theorem fieldF_x_y_n : fieldF (f ++ x ++ y ++ n) = f := by
  apply BitVec.eq_of_toNat_eq
  have := x.isLt
  have := y.isLt
  have := n.isLt
  rw [fieldF_toNat, toNat_append_x_y_n]; omega

@[simp] theorem fieldX_x_y_n : fieldX (f ++ x ++ y ++ n) = x := by
  apply BitVec.eq_of_toNat_eq
  have := x.isLt
  have := y.isLt
  have := n.isLt
  rw [fieldX_toNat, toNat_append_x_y_n]; omega

@[simp] theorem fieldY_x_y_n : fieldY (f ++ x ++ y ++ n) = y := by
  apply BitVec.eq_of_toNat_eq
  have := y.isLt
  have := n.isLt
  rw [fieldY_toNat, toNat_append_x_y_n]; omega

@[simp] theorem fieldN_x_y_n : fieldN (f ++ x ++ y ++ n) = n := by
  apply BitVec.eq_of_toNat_eq
  have := n.isLt
  rw [fieldN_toNat, toNat_append_x_y_n]; omega

end

/-! ## An opcode is the concatenation of its fields -/

theorem append_fields_nnn (w : Word) : fieldF w ++ fieldNNN w = w := by
  apply BitVec.eq_of_toNat_eq
  rw [toNat_append_nnn, fieldF_toNat, fieldNNN_toNat]; omega

theorem append_fields_x_nn (w : Word) : fieldF w ++ fieldX w ++ fieldNN w = w := by
  apply BitVec.eq_of_toNat_eq
  rw [toNat_append_x_nn, fieldF_toNat, fieldX_toNat, fieldNN_toNat]; omega

theorem append_fields_x_y_n (w : Word) : fieldF w ++ fieldX w ++ fieldY w ++ fieldN w = w := by
  apply BitVec.eq_of_toNat_eq
  rw [toNat_append_x_y_n, fieldF_toNat, fieldX_toNat, fieldY_toNat, fieldN_toNat]; omega

/-- The opcode read back from its bytes as memory holds them (rule R71). -/
theorem opcodeOfBytes_bytesOfOpcode (w : Word) :
    opcodeOfBytes (w.extractLsb' 8 8) (w.extractLsb' 0 8) = w := by
  apply BitVec.eq_of_toNat_eq
  have := w.isLt
  rw [opcodeOfBytes, BitVec.toNat_append,
    ← Nat.shiftLeft_add_eq_or_of_lt (w.extractLsb' 0 8).isLt, Nat.shiftLeft_eq]
  simp only [BitVec.extractLsb'_toNat, Nat.shiftRight_eq_div_pow]
  omega

end Sys2Proof
end

