-- ==== Sys2Proof/Laws/State.lean ====
section
/-!
SUPPORT. Sys2Proof/Laws/State.lean: one lemma per field per update of the state, and what a register
reads after a register write (spec/10_state.md rules R31, R32; spec/44_alu_8xy.md rule R220).
-/

namespace Sys2Proof.Machine

/-! ## advance -/

@[simp] theorem State.advance_cfg (s : State) :
    s.advance.cfg = s.cfg := rfl

@[simp] theorem State.advance_mem (s : State) :
    s.advance.mem = s.mem := rfl

@[simp] theorem State.advance_v (s : State) :
    s.advance.v = s.v := rfl

@[simp] theorem State.advance_index (s : State) :
    s.advance.index = s.index := rfl

@[simp] theorem State.advance_stack (s : State) :
    s.advance.stack = s.stack := rfl

@[simp] theorem State.advance_sp (s : State) :
    s.advance.sp = s.sp := rfl

@[simp] theorem State.advance_dt (s : State) :
    s.advance.dt = s.dt := rfl

@[simp] theorem State.advance_st (s : State) :
    s.advance.st = s.st := rfl

@[simp] theorem State.advance_keypad (s : State) :
    s.advance.keypad = s.keypad := rfl

@[simp] theorem State.advance_display (s : State) :
    s.advance.display = s.display := rfl

@[simp] theorem State.advance_rs (s : State) :
    s.advance.rs = s.rs := rfl

@[simp] theorem State.advance_fl (s : State) :
    s.advance.fl = s.fl := rfl

@[simp] theorem State.advance_reply (s : State) :
    s.advance.reply = s.reply := rfl

@[simp] theorem State.advance_stepped (s : State) :
    s.advance.stepped = s.stepped := rfl

/-! ## setV -/

@[simp] theorem State.setV_cfg (s : State) (i : Nibble) (b : Byte) :
    (s.setV i b).cfg = s.cfg := rfl

@[simp] theorem State.setV_mem (s : State) (i : Nibble) (b : Byte) :
    (s.setV i b).mem = s.mem := rfl

@[simp] theorem State.setV_index (s : State) (i : Nibble) (b : Byte) :
    (s.setV i b).index = s.index := rfl

@[simp] theorem State.setV_pc (s : State) (i : Nibble) (b : Byte) :
    (s.setV i b).pc = s.pc := rfl

@[simp] theorem State.setV_stack (s : State) (i : Nibble) (b : Byte) :
    (s.setV i b).stack = s.stack := rfl

@[simp] theorem State.setV_sp (s : State) (i : Nibble) (b : Byte) :
    (s.setV i b).sp = s.sp := rfl

@[simp] theorem State.setV_dt (s : State) (i : Nibble) (b : Byte) :
    (s.setV i b).dt = s.dt := rfl

@[simp] theorem State.setV_st (s : State) (i : Nibble) (b : Byte) :
    (s.setV i b).st = s.st := rfl

@[simp] theorem State.setV_keypad (s : State) (i : Nibble) (b : Byte) :
    (s.setV i b).keypad = s.keypad := rfl

@[simp] theorem State.setV_display (s : State) (i : Nibble) (b : Byte) :
    (s.setV i b).display = s.display := rfl

@[simp] theorem State.setV_rs (s : State) (i : Nibble) (b : Byte) :
    (s.setV i b).rs = s.rs := rfl

@[simp] theorem State.setV_fl (s : State) (i : Nibble) (b : Byte) :
    (s.setV i b).fl = s.fl := rfl

@[simp] theorem State.setV_reply (s : State) (i : Nibble) (b : Byte) :
    (s.setV i b).reply = s.reply := rfl

@[simp] theorem State.setV_stepped (s : State) (i : Nibble) (b : Byte) :
    (s.setV i b).stepped = s.stepped := rfl

/-! ## skipIf -/

@[simp] theorem State.skipIf_cfg (s : State) (c : Bool) :
    (s.skipIf c).cfg = s.cfg := by cases c <;> rfl

@[simp] theorem State.skipIf_mem (s : State) (c : Bool) :
    (s.skipIf c).mem = s.mem := by cases c <;> rfl

@[simp] theorem State.skipIf_v (s : State) (c : Bool) :
    (s.skipIf c).v = s.v := by cases c <;> rfl

@[simp] theorem State.skipIf_index (s : State) (c : Bool) :
    (s.skipIf c).index = s.index := by cases c <;> rfl

@[simp] theorem State.skipIf_stack (s : State) (c : Bool) :
    (s.skipIf c).stack = s.stack := by cases c <;> rfl

@[simp] theorem State.skipIf_sp (s : State) (c : Bool) :
    (s.skipIf c).sp = s.sp := by cases c <;> rfl

@[simp] theorem State.skipIf_dt (s : State) (c : Bool) :
    (s.skipIf c).dt = s.dt := by cases c <;> rfl

@[simp] theorem State.skipIf_st (s : State) (c : Bool) :
    (s.skipIf c).st = s.st := by cases c <;> rfl

@[simp] theorem State.skipIf_keypad (s : State) (c : Bool) :
    (s.skipIf c).keypad = s.keypad := by cases c <;> rfl

@[simp] theorem State.skipIf_display (s : State) (c : Bool) :
    (s.skipIf c).display = s.display := by cases c <;> rfl

@[simp] theorem State.skipIf_rs (s : State) (c : Bool) :
    (s.skipIf c).rs = s.rs := by cases c <;> rfl

@[simp] theorem State.skipIf_fl (s : State) (c : Bool) :
    (s.skipIf c).fl = s.fl := by cases c <;> rfl

@[simp] theorem State.skipIf_reply (s : State) (c : Bool) :
    (s.skipIf c).reply = s.reply := by cases c <;> rfl

@[simp] theorem State.skipIf_stepped (s : State) (c : Bool) :
    (s.skipIf c).stepped = s.stepped := by cases c <;> rfl

/-! ## flagThenResult -/

@[simp] theorem State.flagThenResult_cfg (s : State) (x y : Nibble) (flag result : Byte → Byte → Byte) :
    (s.flagThenResult x y flag result).cfg = s.cfg := by
  simp only [State.flagThenResult]
  split <;> rfl

@[simp] theorem State.flagThenResult_mem (s : State) (x y : Nibble) (flag result : Byte → Byte → Byte) :
    (s.flagThenResult x y flag result).mem = s.mem := by
  simp only [State.flagThenResult]
  split <;> rfl

@[simp] theorem State.flagThenResult_index (s : State) (x y : Nibble) (flag result : Byte → Byte → Byte) :
    (s.flagThenResult x y flag result).index = s.index := by
  simp only [State.flagThenResult]
  split <;> rfl

@[simp] theorem State.flagThenResult_pc (s : State) (x y : Nibble) (flag result : Byte → Byte → Byte) :
    (s.flagThenResult x y flag result).pc = s.pc := by
  simp only [State.flagThenResult]
  split <;> rfl

@[simp] theorem State.flagThenResult_stack (s : State) (x y : Nibble) (flag result : Byte → Byte → Byte) :
    (s.flagThenResult x y flag result).stack = s.stack := by
  simp only [State.flagThenResult]
  split <;> rfl

@[simp] theorem State.flagThenResult_sp (s : State) (x y : Nibble) (flag result : Byte → Byte → Byte) :
    (s.flagThenResult x y flag result).sp = s.sp := by
  simp only [State.flagThenResult]
  split <;> rfl

@[simp] theorem State.flagThenResult_dt (s : State) (x y : Nibble) (flag result : Byte → Byte → Byte) :
    (s.flagThenResult x y flag result).dt = s.dt := by
  simp only [State.flagThenResult]
  split <;> rfl

@[simp] theorem State.flagThenResult_st (s : State) (x y : Nibble) (flag result : Byte → Byte → Byte) :
    (s.flagThenResult x y flag result).st = s.st := by
  simp only [State.flagThenResult]
  split <;> rfl

@[simp] theorem State.flagThenResult_keypad (s : State) (x y : Nibble) (flag result : Byte → Byte → Byte) :
    (s.flagThenResult x y flag result).keypad = s.keypad := by
  simp only [State.flagThenResult]
  split <;> rfl

@[simp] theorem State.flagThenResult_display (s : State) (x y : Nibble) (flag result : Byte → Byte → Byte) :
    (s.flagThenResult x y flag result).display = s.display := by
  simp only [State.flagThenResult]
  split <;> rfl

@[simp] theorem State.flagThenResult_rs (s : State) (x y : Nibble) (flag result : Byte → Byte → Byte) :
    (s.flagThenResult x y flag result).rs = s.rs := by
  simp only [State.flagThenResult]
  split <;> rfl

@[simp] theorem State.flagThenResult_fl (s : State) (x y : Nibble) (flag result : Byte → Byte → Byte) :
    (s.flagThenResult x y flag result).fl = s.fl := by
  simp only [State.flagThenResult]
  split <;> rfl

@[simp] theorem State.flagThenResult_reply (s : State) (x y : Nibble) (flag result : Byte → Byte → Byte) :
    (s.flagThenResult x y flag result).reply = s.reply := by
  simp only [State.flagThenResult]
  split <;> rfl

@[simp] theorem State.flagThenResult_stepped (s : State) (x y : Nibble) (flag result : Byte → Byte → Byte) :
    (s.flagThenResult x y flag result).stepped = s.stepped := by
  simp only [State.flagThenResult]
  split <;> rfl

@[simp] theorem State.advance_pc (s : State) : s.advance.pc = s.pc + 2#16 := rfl

theorem State.skipIf_pc (s : State) (c : Bool) :
    (s.skipIf c).pc = if c = true then s.pc + 2#16 else s.pc := by
  cases c <;> rfl

/-! ## Registers -/

/-- A register reads what the register file holds: updates of other fields do not matter. -/
theorem State.getV_congr {s t : State} (h : t.v = s.v) (k : Nibble) : t.getV k = s.getV k := by
  simp only [State.getV, h]

@[simp] theorem State.getV_advance (s : State) (k : Nibble) : s.advance.getV k = s.getV k := rfl

@[simp] theorem State.getV_skipIf (s : State) (c : Bool) (k : Nibble) :
    (s.skipIf c).getV k = s.getV k := State.getV_congr (by simp) k

/-- V[i] <- b, read back: b at i, and every other register as before. -/
theorem State.getV_setV (s : State) (i k : Nibble) (b : Byte) :
    (s.setV i b).getV k = if k = i then b else s.getV k := by
  simp only [State.getV, State.setV, Vector.getElem_set]
  by_cases h : k = i
  · simp [h]
  · have : ¬ i.toNat = k.toNat := fun e => h (BitVec.eq_of_toNat_eq e.symm)
    simp [h, this]

@[simp] theorem State.getV_setV_self (s : State) (i : Nibble) (b : Byte) :
    (s.setV i b).getV i = b := by simp [State.getV_setV]

theorem State.getV_setV_of_ne (s : State) {i k : Nibble} (b : Byte) (h : k ≠ i) :
    (s.setV i b).getV k = s.getV k := by simp [State.getV_setV, h]

/-- Register files that read the same in every register are the same. -/
theorem State.v_ext {s t : State} (h : ∀ k, t.getV k = s.getV k) : t.v = s.v := by
  apply Vector.ext
  intro j hj
  have := h (BitVec.ofNat 4 j)
  simpa [State.getV, Nat.mod_eq_of_lt hj] using this

/-- The operand that the register statement of a flag-writing row reads from r once the flag is in
VF (rule R220). -/
def operandByte (s : State) (flag : Byte) (r : Nibble) : Byte :=
  match s.cfg.operandOrder with
  | .sequential => if r = regVF then flag else s.getV r
  | .snapshot => s.getV r

/-- Everything a flag-writing row does to the registers (rule R220): V[X] gets the result of the
operands as the order reads them, VF the flag unless X is F, and no other register changes. -/
theorem State.getV_flagThenResult (s : State) (x y k : Nibble) (flag result : Byte → Byte → Byte) :
    (s.flagThenResult x y flag result).getV k =
      let f := flag (s.getV x) (s.getV y)
      if k = x then result (operandByte s f x) (operandByte s f y)
      else if k = regVF then f
      else s.getV k := by
  simp only [State.flagThenResult, operandByte]
  cases s.cfg.operandOrder <;> simp [State.getV_setV]

end Sys2Proof.Machine
end

