-- ==== Sys2Proof/Laws/Draw.lean ====
section
/-!
SUPPORT. Sys2Proof/Laws/Draw.lean: what the drawing functions do to a pixel and to the collision
(spec/45_draw.md rules R263 to R265), each said once.
-/

namespace Sys2Proof.Machine

@[simp] theorem Display.pixel_clear (x y : Nat) : Display.clear.pixel x y = false := by
  rw [Display.pixel]
  split
  · simp [Display.clear]
  · rfl

/-- A pixel outside the display reads false. -/
theorem Display.pixel_outside {d : Display} {x y : Nat} (h : ¬(y < dispH ∧ x < dispW)) :
    d.pixel x y = false := by rw [Display.pixel, dif_neg h]

/-- One pixel is xor-ed, every other one is as before. -/
theorem Display.pixel_xorPixel {d : Display} {x y px py : Nat} {bit : Bool}
    (h : y < dispH ∧ x < dispW) :
    (d.xorPixel x y bit).pixel px py =
      (d.pixel px py ^^ (decide (px = x) && decide (py = y) && bit)) := by
  by_cases hp : py < dispH ∧ px < dispW
  · rw [Display.xorPixel, dif_pos h, Display.pixel, dif_pos hp, Display.pixel, dif_pos hp]
    by_cases hy : y = py
    · subst hy
      by_cases hx : x = px
      · subst hx; simp
      · simp [hx, Ne.symm hx]
    · have hy' : ¬ py = y := fun e => hy e.symm
      simp [hy, hy']
  · rw [Display.pixel_outside hp, Display.pixel_outside hp]
    have : ¬(px = x ∧ py = y) := by rintro ⟨rfl, rfl⟩; exact hp h
    by_cases hx : px = x <;> by_cases hy : py = y <;> simp_all

/-- Drawing one row (rules R263, R264): every pixel of the row takes the bit that lands on it; the
collision is set when a set bit lands on a lit pixel. -/
theorem drawRow_spec {bits : List Bool} {x y : Nat} {d : Display} {hit : Bool} (hy : y < dispH) :
    (∀ px py, px < dispW → (drawRow bits x y (d, hit)).1.pixel px py =
      (d.pixel px py ^^ (decide (py = y) && decide (x ≤ px) && bits.getD (px - x) false))) ∧
    ((drawRow bits x y (d, hit)).2 = true ↔ hit = true ∨
      ∃ px, x ≤ px ∧ px < dispW ∧ bits.getD (px - x) false = true ∧ d.pixel px y = true) := by
  induction bits generalizing x d hit with
  | nil => simp [drawRow]
  | cons bit bits ih =>
    rw [drawRow]
    split
    · rename_i hx
      refine ⟨fun px py hpx => ?_, ?_⟩
      · have : ¬ x ≤ px := by omega
        simp [this]
      · constructor
        · exact Or.inl
        · rintro (h | ⟨px, h1, h2, -⟩)
          · exact h
          · omega
    · rename_i hx
      have hxy : y < dispH ∧ x < dispW := ⟨hy, by omega⟩
      obtain ⟨ih1, ih2⟩ := @ih (x + 1) (d.xorPixel x y bit) (hit || (bit && d.pixel x y))
      constructor
      · intro px py hpx
        rw [ih1 px py hpx, Display.pixel_xorPixel hxy]
        by_cases h1 : px = x
        · subst h1
          by_cases h2 : py = y <;> simp [h2]
        · by_cases h2 : x ≤ px
          · obtain ⟨j, rfl⟩ : ∃ j, px = x + 1 + j := ⟨px - (x + 1), by omega⟩
            have e1 : x + 1 + j - (x + 1) = j := by omega
            have e2 : x + 1 + j - x = j + 1 := by omega
            have e3 : x + 1 ≤ x + 1 + j := by omega
            simp [e1, e2, e3, h1, h2]
          · have h3 : ¬ x + 1 ≤ px := by omega
            simp [h1, h2, h3]
      · rw [ih2]
        constructor
        · rintro (h | ⟨px, h1, h2, h3, h4⟩)
          · simp only [Bool.or_eq_true, Bool.and_eq_true] at h
            rcases h with h | ⟨h, h'⟩
            · exact Or.inl h
            · exact Or.inr ⟨x, le_refl x, by omega, by simpa using h, h'⟩
          · refine Or.inr ⟨px, by omega, h2, ?_, ?_⟩
            · obtain ⟨j, rfl⟩ : ∃ j, px = x + 1 + j := ⟨px - (x + 1), by omega⟩
              have e1 : x + 1 + j - (x + 1) = j := by omega
              have e2 : x + 1 + j - x = j + 1 := by omega
              rw [e1] at h3
              rw [e2]
              simpa using h3
            · rw [Display.pixel_xorPixel hxy] at h4
              have : ¬ px = x := by omega
              simpa [this] using h4
        · rintro (h | ⟨px, h1, h2, h3, h4⟩)
          · left; simp [h]
          · by_cases hpx : px = x
            · subst hpx
              left
              have : bit = true := by simpa using h3
              simp [this, h4]
            · right
              refine ⟨px, by omega, h2, ?_, ?_⟩
              · obtain ⟨j, rfl⟩ : ∃ j, px = x + 1 + j := ⟨px - (x + 1), by omega⟩
                have e1 : x + 1 + j - (x + 1) = j := by omega
                have e2 : x + 1 + j - x = j + 1 := by omega
                rw [e2] at h3
                rw [e1]
                simpa using h3
              · rw [Display.pixel_xorPixel hxy]
                simpa [hpx] using h4

/-- The bit of a sprite, given as its rows' pixels, that lands on (px, py) from the origin. -/
def bitAt (rows : List Byte) (x0 y : Nat) (px py : Nat) : Bool :=
  decide (y ≤ py) && decide (x0 ≤ px) &&
    ((rows[py - y]?).elim false fun row => (rowBits row).getD (px - x0) false)

theorem bitAt_cons_eq (row : Byte) (rows : List Byte) (x0 y px : Nat) :
    bitAt (row :: rows) x0 y px y = (decide (x0 ≤ px) && (rowBits row).getD (px - x0) false) := by
  simp [bitAt]

theorem bitAt_cons_ne (row : Byte) (rows : List Byte) {x0 y px py : Nat} (h : py ≠ y) :
    bitAt (row :: rows) x0 y px py = bitAt rows x0 (y + 1) px py := by
  rw [bitAt, bitAt]
  by_cases h1 : y ≤ py
  · obtain ⟨j, rfl⟩ : ∃ j, py = y + 1 + j := ⟨py - (y + 1), by omega⟩
    have e1 : y + 1 + j - (y + 1) = j := by omega
    have e2 : y + 1 + j - y = j + 1 := by omega
    have e3 : y + 1 ≤ y + 1 + j := by omega
    simp [e1, e2, e3, h1]
  · have : ¬ y + 1 ≤ py := by omega
    simp [h1, this]

theorem bitAt_of_lt (rows : List Byte) {x0 y px py : Nat} (h : py < y) :
    bitAt rows x0 y px py = false := by
  have : ¬ y ≤ py := by omega
  simp [bitAt, this]

/-- Drawing the rows of a sprite (rules R263 to R265): every pixel of the display takes the sprite
bit that lands on it, and the collision is set when a set bit lands on a pixel that was lit. -/
theorem drawRows_spec {rows : List Byte} {x0 y : Nat} {d : Display} {hit : Bool} :
    (∀ px py, px < dispW → py < dispH → (drawRows rows x0 y (d, hit)).1.pixel px py =
      (d.pixel px py ^^ bitAt rows x0 y px py)) ∧
    ((drawRows rows x0 y (d, hit)).2 = true ↔ hit = true ∨
      ∃ px py, px < dispW ∧ py < dispH ∧ bitAt rows x0 y px py = true ∧
        d.pixel px py = true) := by
  induction rows generalizing y d hit with
  | nil => simp [drawRows, bitAt]
  | cons row rows ih =>
    rw [drawRows]
    split
    · rename_i hy
      refine ⟨fun px py _ hpy => ?_, ?_⟩
      · simp [bitAt_of_lt (row :: rows) (show py < y by omega)]
      · constructor
        · exact Or.inl
        · rintro (h | ⟨px, py, -, h1, h2, -⟩)
          · exact h
          · rw [bitAt_of_lt (row :: rows) (show py < y by omega)] at h2
            cases h2
    · rename_i hy
      have hy' : y < dispH := by omega
      obtain ⟨r1, r2⟩ := @drawRow_spec (rowBits row) x0 y d hit hy'
      rcases hr : drawRow (rowBits row) x0 y (d, hit) with ⟨d', hit'⟩
      rw [hr] at r1 r2
      obtain ⟨ih1, ih2⟩ := @ih (y + 1) d' hit'
      constructor
      · intro px py hpx hpy
        rw [ih1 px py hpx hpy, r1 px py hpx]
        by_cases h : py = y
        · subst h
          rw [bitAt_of_lt rows (Nat.lt_succ_self py), bitAt_cons_eq]
          simp
        · rw [bitAt_cons_ne row rows h]
          simp [h]
      · rw [ih2, r2]
        constructor
        · rintro ((h | ⟨px, h1, h2, h3, h4⟩) | ⟨px, py, h1, h2, h3, h4⟩)
          · exact Or.inl h
          · exact Or.inr ⟨px, y, h2, hy', by rw [bitAt_cons_eq, h3]; simp [h1], h4⟩
          · have h5 : py ≠ y := by
              rintro rfl
              rw [bitAt_of_lt rows (Nat.lt_succ_self py)] at h3
              cases h3
            refine Or.inr ⟨px, py, h1, h2, by rwa [bitAt_cons_ne row rows h5], ?_⟩
            rw [r1 px py h1] at h4
            simpa [h5] using h4
        · rintro (h | ⟨px, py, h1, h2, h3, h4⟩)
          · exact Or.inl (Or.inl h)
          · by_cases h5 : py = y
            · subst h5
              rw [bitAt_cons_eq, Bool.and_eq_true, decide_eq_true_eq] at h3
              exact Or.inl (Or.inr ⟨px, h3.1, h1, h3.2, h4⟩)
            · rw [bitAt_cons_ne row rows h5] at h3
              refine Or.inr ⟨px, py, h1, h2, h3, ?_⟩
              rw [r1 px py h1]
              simpa [h5] using h4

/-- The sprite bit of a pixel, bit 7 − b for column b, and none beyond the eighth column. -/
theorem rowBits_getD (row : Byte) (b : Nat) :
    (rowBits row).getD b false = (decide (b < 8) && row.getLsbD (7 - b)) := by
  rw [rowBits, List.getD_eq_getElem?_getD, List.getElem?_map]
  by_cases h : b < 8 <;> simp [h]

end Sys2Proof.Machine
end

