-- ==== Sys2Proof/Laws/Memory.lean ====
section
/-!
SUPPORT. Sys2Proof/Laws/Memory.lean: what the memory operations do (spec/00_scope.md rule R14;
spec/20_memory.md rules R73, R84): reads after writes, the canonical form, and that canonical
memories are equal when every byte is.
-/

namespace Sys2Proof.Machine

/-- A canonical memory with a lower bound on its addresses, without its first cell. -/
theorem Memory.wfFrom_cons {lo k : Nat} {b : Byte} {m : Memory} :
    Memory.wfFrom lo ((k, b) :: m) = true ↔
      lo ≤ k ∧ k < memSize ∧ b ≠ Memory.unlisted k ∧ Memory.wfFrom (k + 1) m = true := by
  simp [Memory.wfFrom, and_assoc]

theorem Memory.wfFrom_mono {lo lo' : Nat} {m : Memory} (h : lo' ≤ lo)
    (hm : Memory.wfFrom lo m = true) : Memory.wfFrom lo' m = true := by
  cases m with
  | nil => rfl
  | cons c m =>
    obtain ⟨k, b⟩ := c
    rw [Memory.wfFrom_cons] at hm ⊢
    exact ⟨by omega, hm.2⟩

/-- Below the first listed address, memory reads as unlisted. -/
theorem Memory.read_of_lt {lo a : Nat} {m : Memory} (hm : Memory.wfFrom lo m = true) (h : a < lo) :
    m.read a = Memory.unlisted a := by
  induction m generalizing lo with
  | nil => rfl
  | cons c m ih =>
    obtain ⟨k, b⟩ := c
    obtain ⟨hk, -, -, hm⟩ := Memory.wfFrom_cons.1 hm
    rw [Memory.read, if_neg (by omega), ih hm (by omega)]

theorem Memory.wfFrom_write {lo a : Nat} {b : Byte} {m : Memory} (hm : Memory.wfFrom lo m = true)
    (hlo : lo ≤ a) (ha : a < memSize) : Memory.wfFrom lo (m.write a b) = true := by
  induction m generalizing lo with
  | nil =>
    rw [Memory.write]
    split
    · rfl
    · exact Memory.wfFrom_cons.2 ⟨hlo, ha, ‹_›, rfl⟩
  | cons c m ih =>
    obtain ⟨k, d⟩ := c
    have hc := Memory.wfFrom_cons.1 hm
    rw [Memory.write]
    split
    · split
      · exact hm
      · exact Memory.wfFrom_cons.2 ⟨hlo, ha, ‹_›, Memory.wfFrom_cons.2 ⟨by omega, hc.2⟩⟩
    · split
      · split
        · exact Memory.wfFrom_mono (by omega) hc.2.2.2
        · exact Memory.wfFrom_cons.2 ⟨hlo, ha, ‹_›, by subst_vars; exact hc.2.2.2⟩
      · exact Memory.wfFrom_cons.2 ⟨hc.1, hc.2.1, hc.2.2.1, ih hc.2.2.2 (by omega)⟩

/-- A write keeps the canonical form. -/
theorem Memory.wf_write {a : Nat} {m : Memory} (b : Byte) (hm : m.wf = true) (ha : a < memSize) :
    (m.write a b).wf = true := Memory.wfFrom_write hm (Nat.zero_le a) ha

theorem Memory.read_write_from {lo a a' : Nat} {b : Byte} {m : Memory}
    (hm : Memory.wfFrom lo m = true) : (m.write a b).read a' = if a' = a then b else m.read a' := by
  induction m generalizing lo with
  | nil =>
    rw [Memory.write]
    split
    · by_cases h : a' = a <;> simp_all [Memory.read]
    · simp [Memory.read]
  | cons c m ih =>
    obtain ⟨k, d⟩ := c
    have hc := (Memory.wfFrom_cons.1 hm).2.2.2
    rw [Memory.write]
    split
    · split
      · by_cases h : a' = a
        · subst h
          rw [if_pos rfl, Memory.read, if_neg (by omega), Memory.read_of_lt hc (by omega), ‹b = _›]
        · rw [if_neg h]
      · simp [Memory.read]
    · split
      · split
        · by_cases h : a' = a
          · subst h
            rw [if_pos rfl, Memory.read_of_lt hc (by omega), ‹b = _›]
          · rw [if_neg h, Memory.read, if_neg (by omega)]
        · subst_vars
          by_cases h : a' = k <;> simp [Memory.read, h]
      · rw [Memory.read, Memory.read, ih hc]
        by_cases h : a' = k
        · rw [if_pos h, if_neg (by omega), if_pos h]
        · rw [if_neg h, if_neg h]

/-- A read after a write to canonical memory: the byte written at its address, every other byte as
before. -/
theorem Memory.read_write {a a' : Nat} {m : Memory} (b : Byte) (hm : m.wf = true) :
    (m.write a b).read a' = if a' = a then b else m.read a' := Memory.read_write_from hm

/-- A run of writes inside memory keeps the canonical form. -/
theorem Memory.wf_writeAll {a : Nat} {m : Memory} {bs : List Byte} (hm : m.wf = true)
    (h : a + bs.length ≤ memSize) : (m.writeAll a bs).wf = true := by
  induction bs generalizing a m with
  | nil => exact hm
  | cons b bs ih =>
    rw [List.length_cons] at h
    exact ih (Memory.wf_write b hm (by omega)) (by omega)

/-- A read after a run of writes inside canonical memory. -/
theorem Memory.read_writeAll {a a' : Nat} {m : Memory} {bs : List Byte} (hm : m.wf = true)
    (h : a + bs.length ≤ memSize) :
    (m.writeAll a bs).read a' =
      if a ≤ a' ∧ a' < a + bs.length then bs.getD (a' - a) 0x00#8 else m.read a' := by
  induction bs generalizing a m with
  | nil => rw [Memory.writeAll, if_neg (by simp)]
  | cons b bs ih =>
    rw [List.length_cons] at h ⊢
    rw [Memory.writeAll, ih (Memory.wf_write b hm (by omega)) (by omega), Memory.read_write b hm]
    by_cases h1 : a' = a
    · subst h1
      rw [if_neg (by omega), if_pos rfl, if_pos (by omega)]
      simp
    · by_cases h2 : a + 1 ≤ a' ∧ a' < a + 1 + bs.length
      · obtain ⟨j, rfl⟩ : ∃ j, a' = a + 1 + j := ⟨a' - (a + 1), by omega⟩
        rw [if_pos h2, if_pos (by omega)]
        have e1 : a + 1 + j - (a + 1) = j := by omega
        have e2 : a + 1 + j - a = j + 1 := by omega
        rw [e1, e2, List.getD_cons_succ]
      · rw [if_neg h2, if_neg h1, if_neg (by omega)]

/-- Placing an opcode keeps the canonical form. -/
theorem Memory.wf_placeOpcode {a : Nat} {m : Memory} {w : Word} (hm : m.wf = true) :
    (m.placeOpcode a w).wf = true := by
  rw [Memory.placeOpcode]
  split
  · exact Memory.wf_writeAll hm (by simpa [bytesOfOpcode] using ‹a + 2 ≤ memSize›)
  · exact hm

theorem Memory.eq_of_read_from {lo : Nat} {m m' : Memory} (hm : Memory.wfFrom lo m = true)
    (hm' : Memory.wfFrom lo m' = true) (h : ∀ a, m.read a = m'.read a) : m = m' := by
  induction m generalizing lo m' with
  | nil =>
    cases m' with
    | nil => rfl
    | cons c' m' =>
      obtain ⟨k', b'⟩ := c'
      have := h k'
      rw [Memory.read, Memory.read, if_pos rfl] at this
      exact absurd this.symm (Memory.wfFrom_cons.1 hm').2.2.1
  | cons c m ih =>
    obtain ⟨k, b⟩ := c
    obtain ⟨hk, -, hb, hm1⟩ := Memory.wfFrom_cons.1 hm
    cases m' with
    | nil =>
      have := h k
      rw [Memory.read, Memory.read, if_pos rfl] at this
      exact absurd this hb
    | cons c' m' =>
      obtain ⟨k', b'⟩ := c'
      obtain ⟨hk', -, hb', hm1'⟩ := Memory.wfFrom_cons.1 hm'
      have hkk : k = k' := by
        rcases Nat.lt_trichotomy k k' with hlt | heq | hgt
        · have := h k
          rw [Memory.read, if_pos rfl, Memory.read, if_neg (by omega),
            Memory.read_of_lt hm1' (by omega)] at this
          exact absurd this hb
        · exact heq
        · have := h k'
          rw [Memory.read, if_neg (by omega), Memory.read_of_lt hm1 (by omega), Memory.read,
            if_pos rfl] at this
          exact absurd this.symm hb'
      subst hkk
      have hbb : b = b' := by
        have := h k
        rwa [Memory.read, if_pos rfl, Memory.read, if_pos rfl] at this
      subst hbb
      rw [ih hm1 hm1' fun a => ?_]
      by_cases ha : a = k
      · subst ha
        rw [Memory.read_of_lt hm1 (by omega), Memory.read_of_lt hm1' (by omega)]
      · have := h a
        rwa [Memory.read, if_neg ha, Memory.read, if_neg ha] at this

/-- Equal memories are equal data: two canonical memories that read the same everywhere are the
same list. -/
theorem Memory.eq_of_read {m m' : Memory} (hm : m.wf = true) (hm' : m'.wf = true)
    (h : ∀ a, m.read a = m'.read a) : m = m' := Memory.eq_of_read_from hm hm' h

/-- The memory of the state after reset is canonical. -/
theorem State.reset_mem_wf : State.reset.mem.wf = true := rfl

/-- An access inside memory faults nowhere (rule R73). -/
theorem rangeFault_eq_none {a n : Nat} : rangeFault a n = none ↔ n = 0 ∨ a + n ≤ memSize := by
  rw [rangeFault]
  split <;> simp <;> omega

/-- An access that leaves memory records its lowest out-of-range address (rules R14, R73). -/
theorem rangeFault_eq_some {a n : Nat} {f : Fault} :
    rangeFault a n = some f ↔
      (0 < n ∧ memSize < a + n) ∧ f = .memoryOutOfRange (BitVec.ofNat 16 (max a memSize)) := by
  rw [rangeFault]
  split <;> simp_all [eq_comm]

end Sys2Proof.Machine
end

