-- ==== Sys2Proof/Laws/Ops.lean ====
section
/-!
SUPPORT. Sys2Proof/Laws/Ops.lean: what each shared operation can do, said once: the ways a step
ends, the call stack, the gates, the fetch, an unsupported encoding, and a step as a whole.
-/

namespace Sys2Proof.Machine

/-! ## How a step ends -/

theorem complete_eq_next {s t : State} :
    complete s = .next t ↔ t = { s with reply := .ok, stepped := true } := by
  simp only [complete, Host.Outcome.next.injEq, eq_comm]

theorem raise_eq_next {f : Fault} {s t : State} :
    raise f s = .next t ↔ t = { s with fl := some f, reply := .fault f, stepped := true } := by
  simp only [raise, Host.Outcome.next.injEq, eq_comm]

theorem reportUnsupported_eq_next {opcode addr : Word} {s t : State} :
    reportUnsupported opcode addr s = .next t ↔
      t = { s with reply := .unsupportedOpcode opcode addr, stepped := true } := by
  simp only [reportUnsupported, Host.Outcome.next.injEq, eq_comm]

/-! ## Call stack -/

theorem State.push_of_full {s : State} (a : Word) (h : s.sp.val = stackDepth) :
    s.push a = none := by
  simp only [State.push]
  rw [dif_neg (by omega)]

/-- A push below full depth: the entry at the old depth is written, the depth is one more. -/
theorem State.push_of_lt {s : State} (a : Word) (h : s.sp.val < stackDepth) :
    s.push a = some { s with
      stack := s.stack.set s.sp.val a h, sp := ⟨s.sp.val + 1, by omega⟩ } := by
  simp only [State.push]
  rw [dif_pos h]

theorem State.pop_of_empty {s : State} (h : s.sp.val = 0) : s.pop = none := by
  simp only [State.pop]
  rw [dif_neg (by omega)]

/-- A pop from a stack that is not empty: the entry under the depth, the depth one less, the entries
as before. -/
theorem State.pop_of_pos {s : State} (h : 0 < s.sp.val) :
    s.pop = some (s.stack[s.sp.val - 1]'(by have := s.sp.isLt; omega),
      { s with sp := ⟨s.sp.val - 1, by have := s.sp.isLt; omega⟩ }) := by
  simp only [State.pop]
  rw [dif_pos h]

/-! ## Gates, fetch, step -/

theorem gate_eq_none {s : State} : gate s = none ↔ s.rs = .running ∧ s.fl = none := by
  rw [gate]
  split
  · simp_all
  · split <;> simp_all

theorem gate_of_not_running {s : State} (h : s.rs ≠ .running) :
    gate s = some (.refused .notRunning) := by
  rw [gate, if_pos h]

theorem gate_of_latched {s : State} {f : Fault} (hr : s.rs = .running) (hf : s.fl = some f) :
    gate s = some (.fault f) := by
  simp [gate, hr, hf]

theorem fetch_of_in_range {s : State} (h : s.pc.toNat + 2 ≤ memSize) :
    fetch s = .ok (opcodeOfBytes (s.mem.read s.pc.toNat) (s.mem.read (s.pc.toNat + 1))) := by
  rw [fetch, rangeFault_eq_none.2 (Or.inr h)]

theorem fetch_of_out_of_range {s : State} (h : memSize < s.pc.toNat + 2) :
    fetch s = .error (.memoryOutOfRange (BitVec.ofNat 16 (max s.pc.toNat memSize))) := by
  rw [fetch, rangeFault_eq_some.2 ⟨⟨by omega, h⟩, rfl⟩]

/-- Everything a step that answers a next state can have done: it was not gated, and it either took
the fetch fault or executed the instruction at pc. -/
theorem step_eq_next {s t : State} (h : step s = .next t) :
    s.rs = .running ∧ s.fl = none ∧
      ((memSize < s.pc.toNat + 2 ∧
          raise (.memoryOutOfRange (BitVec.ofNat 16 (max s.pc.toNat memSize))) s = .next t) ∨
        (s.pc.toNat + 2 ≤ memSize ∧
          exec (decode s.cfg
            (opcodeOfBytes (s.mem.read s.pc.toNat) (s.mem.read (s.pc.toNat + 1)))) s
              = .next t)) := by
  by_cases hr : s.rs = .running
  · cases hf : s.fl with
    | some f => rw [step, gate_of_latched hr hf] at h; cases h
    | none =>
      refine ⟨hr, rfl, ?_⟩
      rw [step, gate_eq_none.2 ⟨hr, hf⟩] at h
      by_cases hp : s.pc.toNat + 2 ≤ memSize
      · rw [fetch_of_in_range hp] at h
        exact Or.inr ⟨hp, h⟩
      · rw [fetch_of_out_of_range (by omega)] at h
        exact Or.inl ⟨by omega, h⟩
  · rw [step, gate_of_not_running hr] at h
    cases h

/-- Everything an unsupported encoding can do (rule R293). -/
theorem unsupportedStep_eq_next {opcode : Word} {s t : State} :
    unsupportedStep opcode s = .next t ↔
      t = { s with
        pc := s.pc + 2#16
        reply := match s.cfg.unsupportedMode with
          | .silent => .ok
          | .strict => .unsupportedOpcode opcode s.pc
        stepped := true } := by
  rw [unsupportedStep]
  cases s.cfg.unsupportedMode
  · exact complete_eq_next
  · exact reportUnsupported_eq_next

end Sys2Proof.Machine
end

