-- ==== Sys2Proof/Laws/HostInterface.lean ====
section
/-!
SUPPORT. Sys2Proof/Laws/HostInterface.lean: what creation and the host's commands can do
(spec/60_exceptions.md rules R330 to R347; spec/70_reset_and_hazards.md rule R360), and the
induction over command sequences, packaged once.
-/

namespace Sys2Proof.Machine

/-- A timer counts down to 0 and stays there (rule R330). -/
theorem countDown_toNat (t : Byte) : (countDown t).toNat = t.toNat - 1 := by
  rw [countDown]
  split
  · subst_vars; rfl
  · rename_i h
    have h0 : t.toNat ≠ 0 := fun e => h (BitVec.eq_of_toNat_eq (by simpa using e))
    have := t.isLt
    rw [BitVec.toNat_sub]
    simp only [BitVec.toNat_ofNat]
    omega

/-- Creation, from the state after reset: only the configuration and memory differ (rule R360). -/
theorem create_eq_ok {cfg : Config} {rom : List Byte} {s : State} (h : create cfg rom = .ok s) :
    rom.length ≤ romMax ∧
      s = { State.reset with
        cfg := cfg
        mem := (Memory.writeAll cfg.memFill 0 cfg.font.toList).writeAll romBase rom } := by
  rw [create] at h
  split at h
  · cases h
  · rename_i hl
    exact ⟨by omega, (Except.ok.inj h).symm⟩

/-- Creation fails on a ROM that is too large and on no other, with RomTooLarge (rule R361). -/
theorem create_eq_error {cfg : Config} {rom : List Byte} {r : Reply} :
    create cfg rom = .error r ↔ romMax < rom.length ∧ r = .romTooLarge rom.length := by
  rw [create]
  split
  · rename_i hl
    exact ⟨fun h => ⟨hl, (Except.error.inj h).symm⟩, fun h => by rw [h.2]⟩
  · rename_i hl
    exact ⟨fun h => (nomatch h), fun h => absurd h.1 hl⟩

/-- A command leaves no machine only by a reset whose ROM is too large (rules R342, R361). -/
theorem command_eq_error {c : Command} {s : State} {r : Reply} :
    command c s = .error r ↔
      ∃ rom, c = .reset rom ∧ romMax < rom.length ∧ r = .romTooLarge rom.length := by
  cases c <;> simp [command, create_eq_error]

/-- Everything a step command can do: the step's next state, or what the gates returned. -/
theorem stepCommand_cases (s : State) :
    (∃ t, step s = .next t ∧ stepCommand s = t) ∨ ∃ r, stepCommand s = { s with reply := r } := by
  rw [stepCommand]
  split
  · exact Or.inl ⟨_, ‹_›, rfl⟩
  · exact Or.inr ⟨_, rfl⟩
  · exact Or.inr ⟨_, rfl⟩

/-- A property that every allowed command keeps holds after every sequence of allowed commands. -/
theorem runCommands_induct {allowed : Command → Prop} {P : State → Prop}
    (keeps : ∀ c s t, allowed c → P s → command c s = .ok t → P t) {cs : List Command}
    {s t : State} (hcs : ∀ c ∈ cs, allowed c) (hs : P s) (h : runCommands cs s = .ok t) : P t := by
  induction cs generalizing s with
  | nil => exact Except.ok.inj h ▸ hs
  | cons c cs ih =>
    rw [runCommands] at h
    cases hc : command c s with
    | error r => rw [hc] at h; cases h
    | ok u =>
      rw [hc] at h
      exact ih (fun d hd => hcs d (List.mem_cons_of_mem c hd))
        (keeps c s u (hcs c List.mem_cons_self) hs hc) h

end Sys2Proof.Machine
end

