-- ==== Sys2Proof/Laws/PerInstr.lean ====
section
/-!
SUPPORT. Sys2Proof/Laws/PerInstr.lean: laws made per instruction. Family FamilyBits: the top four
bits of an instruction's opcode are its family in the opcode map (spec/30_encoding.md rule R105),
under every configuration.
-/

namespace Sys2Proof.Laws.FamilyBits

def Statement (i : Instr) : Prop := ∀ cfg : Config, fieldF (encode cfg i) = i.family

theorem cls (x : Nibble) : Statement (.cls x) := fun _ => fieldF_x_nn _ _ _

theorem ret (x : Nibble) : Statement (.ret x) := fun _ => fieldF_x_nn _ _ _

theorem jp (nnn : Addr12) : Statement (.jp nnn) := fun _ => fieldF_nnn _ _

theorem call (nnn : Addr12) : Statement (.call nnn) := fun _ => fieldF_nnn _ _

theorem seImm (x : Nibble) (nn : Byte) : Statement (.seImm x nn) := fun _ => fieldF_x_nn _ _ _

theorem sneImm (x : Nibble) (nn : Byte) : Statement (.sneImm x nn) := fun _ => fieldF_x_nn _ _ _

theorem seReg (x y n : Nibble) : Statement (.seReg x y n) := fun _ => fieldF_x_y_n _ _ _ _

theorem ldImm (x : Nibble) (nn : Byte) : Statement (.ldImm x nn) := fun _ => fieldF_x_nn _ _ _

theorem addImm (x : Nibble) (nn : Byte) : Statement (.addImm x nn) := fun _ => fieldF_x_nn _ _ _

theorem ldReg (x y : Nibble) : Statement (.ldReg x y) := fun _ => fieldF_x_y_n _ _ _ _

theorem orReg (x y : Nibble) : Statement (.orReg x y) := fun _ => fieldF_x_y_n _ _ _ _

theorem andReg (x y : Nibble) : Statement (.andReg x y) := fun _ => fieldF_x_y_n _ _ _ _

theorem xorReg (x y : Nibble) : Statement (.xorReg x y) := fun _ => fieldF_x_y_n _ _ _ _

theorem addReg (x y : Nibble) : Statement (.addReg x y) := fun _ => fieldF_x_y_n _ _ _ _

theorem sub (x y : Nibble) : Statement (.sub x y) := fun _ => fieldF_x_y_n _ _ _ _

theorem shr (x y : Nibble) : Statement (.shr x y) := fun _ => fieldF_x_y_n _ _ _ _

theorem subn (x y : Nibble) : Statement (.subn x y) := fun _ => fieldF_x_y_n _ _ _ _

theorem shl (x y : Nibble) : Statement (.shl x y) := fun _ => fieldF_x_y_n _ _ _ _

theorem sneReg (x y n : Nibble) : Statement (.sneReg x y n) := fun _ => fieldF_x_y_n _ _ _ _

theorem ldI (nnn : Addr12) : Statement (.ldI nnn) := fun _ => fieldF_nnn _ _

theorem jpV0 (nnn : Addr12) : Statement (.jpV0 nnn) := fun _ => fieldF_nnn _ _

theorem drw (x y n : Nibble) : Statement (.drw x y n) := fun _ => fieldF_x_y_n _ _ _ _

theorem unsupported0 (nnn : Addr12) : Statement (.unsupported0 nnn) := fun _ => fieldF_nnn _ _

theorem unsupported8 (x y n : Nibble) : Statement (.unsupported8 x y n) := fun _ => fieldF_x_y_n _ _ _ _

theorem unsupportedC (nnn : Addr12) : Statement (.unsupportedC nnn) := fun _ => fieldF_nnn _ _

theorem unsupportedE (nnn : Addr12) : Statement (.unsupportedE nnn) := fun _ => fieldF_nnn _ _

theorem unsupportedF (nnn : Addr12) : Statement (.unsupportedF nnn) := fun _ => fieldF_nnn _ _

end Sys2Proof.Laws.FamilyBits
end

