-- ==== Sys2Proof/Tests/Slice0.lean ====
section
/-!
SUPPORT. Sys2Proof/Tests/Slice0.lean: small tests, each of one step or one command. Expected results
are the spec's own vectors (spec/95_test_vectors.md, named in each comment) or read off the opcode
map. The second half holds, for each obligation with hypotheses, a state and operands that meet
them.
-/

namespace Sys2Proof.Tests

open Sys2Proof.Machine

/-- The state after one step on an opcode placed at pc, if it is a next state. -/
def after (w : Nat) (s : State) : Option State :=
  match step (s.withFetchWord 16 w) with
  | .next t => some t
  | .fault _ => none
  | .refused _ => none

/-- What one step on an opcode leaves of a part of the state. -/
def see {α : Type} (w : Nat) (s : State) (f : State → α) : Option α := (after w s).map f

/-- State.reset with some registers. -/
def regs (l : List (Nibble × Byte)) : State :=
  l.foldl (fun s p => s.setV p.1 p.2) State.reset

/-- A state under the Snapshot order. -/
def snap (s : State) : State := { s with cfg := { s.cfg with operandOrder := .snapshot } }

/-- A state under Strict. -/
def strict (s : State) : State := { s with cfg := { s.cfg with unsupportedMode := .strict } }

/-- A state with one sprite byte or more at 0x300 and I there. -/
def sprite (bs : List Byte) (s : State) : State :=
  { s with mem := s.mem.writeAll 0x300 bs, index := 0x300#16 }

/-- A state with one lit pixel. -/
def lit (x y : Nat) (s : State) : State := { s with display := s.display.xorPixel x y true }

/-- V0 and VF. -/
def v0f (s : State) : Byte × Byte := (s.getV 0x0#4, s.getV 0xF#4)

/-- V4 and VF. -/
def v4f (s : State) : Byte × Byte := (s.getV 0x4#4, s.getV 0xF#4)

/-! ## Well-formedness: one ill-formed term for each check -/

theorem test_wf_unsupported0_refuses_cls :
    (Instr.unsupported0 0x5E0#12).wf Config.default = false := by decide

theorem test_wf_unsupported0_refuses_ret :
    (Instr.unsupported0 0x0EE#12).wf Config.default = false := by decide

theorem test_wf_unsupported8_refuses_low_subop :
    (Instr.unsupported8 0x0#4 0x1#4 0x7#4).wf Config.default = false := by decide

theorem test_wf_unsupported8_refuses_shl :
    (Instr.unsupported8 0x0#4 0x1#4 0x8#4).wf Config.default = false := by decide

theorem test_wf_unsupported8_follows_shl_subop :
    (Instr.unsupported8 0x0#4 0x1#4 0x8#4).wf { Config.default with shlSubop := .nE } = true ∧
    (Instr.unsupported8 0x0#4 0x1#4 0xE#4).wf { Config.default with shlSubop := .nE } = false := by
  decide

/-! ## Decode: words written out from the opcode map (rule R105), one or more per constructor -/

theorem test_decode_family0 :
    decode Config.default 0b0000000011100000#16 = .cls 0x0#4 ∧
    decode Config.default 0b0000001111101110#16 = .ret 0x3#4 ∧
    decode Config.default 0b0000000000000000#16 = .unsupported0 0x000#12 := by decide

theorem test_decode_jumps :
    decode Config.default 0b0001001101000101#16 = .jp 0x345#12 ∧
    decode Config.default 0b0010001100000000#16 = .call 0x300#12 ∧
    decode Config.default 0b1011111111111111#16 = .jpV0 0xFFF#12 := by decide

theorem test_decode_skips :
    decode Config.default 0b0011111100000001#16 = .seImm 0xF#4 0x01#8 ∧
    decode Config.default 0b0100001100010010#16 = .sneImm 0x3#4 0x12#8 ∧
    decode Config.default 0b0101000100101111#16 = .seReg 0x1#4 0x2#4 0xF#4 ∧
    decode Config.default 0b1001000100100000#16 = .sneReg 0x1#4 0x2#4 0x0#4 := by decide

theorem test_decode_loads :
    decode Config.default 0b0110000000001010#16 = .ldImm 0x0#4 0x0A#8 ∧
    decode Config.default 0b0111001000100000#16 = .addImm 0x2#4 0x20#8 ∧
    decode Config.default 0b1010111111111111#16 = .ldI 0xFFF#12 := by decide

theorem test_decode_alu_low :
    decode Config.default 0b1000000000010000#16 = .ldReg 0x0#4 0x1#4 ∧
    decode Config.default 0b1000000000010001#16 = .orReg 0x0#4 0x1#4 ∧
    decode Config.default 0b1000000000010010#16 = .andReg 0x0#4 0x1#4 ∧
    decode Config.default 0b1000000000010011#16 = .xorReg 0x0#4 0x1#4 ∧
    decode Config.default 0b1000000000010100#16 = .addReg 0x0#4 0x1#4 := by decide

theorem test_decode_alu_high :
    decode Config.default 0b1000000000010101#16 = .sub 0x0#4 0x1#4 ∧
    decode Config.default 0b1000010001110110#16 = .shr 0x4#4 0x7#4 ∧
    decode Config.default 0b1000000000010111#16 = .subn 0x0#4 0x1#4 ∧
    decode Config.default 0b1000010000001000#16 = .shl 0x4#4 0x0#4 ∧
    decode Config.default 0b1000010000001110#16 = .unsupported8 0x4#4 0x0#4 0xE#4 := by decide

theorem test_decode_draw_and_unsupported :
    decode Config.default 0b1101000100100011#16 = .drw 0x1#4 0x2#4 0x3#4 ∧
    decode Config.default 0b1100000011111111#16 = .unsupportedC 0x0FF#12 ∧
    decode Config.default 0b1110000010011110#16 = .unsupportedE 0x09E#12 ∧
    decode Config.default 0b1111000000101001#16 = .unsupportedF 0x029#12 := by decide

/-- T-A31: under SHL_SUBOP = 0xE, 840E is SHL and 8408 is unsupported. -/
theorem test_decode_shl_subop_e :
    decode { Config.default with shlSubop := .nE } 0x840E#16 = .shl 0x4#4 0x0#4 ∧
    decode { Config.default with shlSubop := .nE } 0x8408#16 =
      .unsupported8 0x4#4 0x0#4 0x8#4 := by decide

/-- E9: 0xD123 has F = D, X = 1, Y = 2, N = 3, NN = 23, NNN = 123. -/
theorem test_fields :
    (fieldF 0xD123#16, fieldX 0xD123#16, fieldY 0xD123#16, fieldN 0xD123#16,
      fieldNN 0xD123#16, fieldNNN 0xD123#16) =
      (0xD#4, 0x1#4, 0x2#4, 0x3#4, 0x23#8, 0x123#12) := by decide

theorem test_decodeBytes_truncated :
    decodeBytes Config.default [] = .error .truncated ∧
    decodeBytes Config.default [0x12#8] = .error .truncated := ⟨rfl, rfl⟩

theorem test_decodeTableWord : decodeTableWord 16 0xA234 = some (.ldI 0x234#12) := by decide

/-! ## Fetch and gates -/

/-- T-F1: the byte at the lower address is the high byte. -/
theorem test_fetch_big_endian :
    fetch { State.reset with mem := State.reset.mem.writeAll 0x200 [0xA2#8, 0x34#8] } =
      .ok 0xA234#16 := by rfl

/-- T-F2: an odd pc fetches normally. -/
theorem test_fetch_odd_pc :
    see 0x607F { State.reset with pc := 0x301#16 } (fun t => (t.getV 0x0#4, t.pc)) =
      some (0x7F#8, 0x303#16) := by decide

/-- T-F3: the last fetch in memory. -/
theorem test_fetch_last_address :
    see 0x0000 { State.reset with pc := 0xFFE#16 } (fun t => (t.pc, t.fl, t.reply)) =
      some (0x1000#16, none, .ok) := by decide

/-- T-F5: at 0xFFF the recorded address is 0x1000, and pc stays. -/
theorem test_fetch_fault_at_fff :
    see 0x0000 { State.reset with pc := 0xFFF#16 } (fun t => (t.pc, t.fl, t.reply)) =
      some (0xFFF#16, some (.memoryOutOfRange 0x1000#16),
        .fault (.memoryOutOfRange 0x1000#16)) := by decide

/-- T-J9, second step: at 0x10FE the recorded address is 0x10FE. -/
theorem test_fetch_fault_at_10fe :
    see 0x0000 { State.reset with pc := 0x10FE#16 } (fun t => t.fl) =
      some (some (.memoryOutOfRange 0x10FE#16)) := by decide

/-- T-F6: a latched fault comes back and nothing changes. -/
theorem test_latched_fault :
    (stepCommand { State.reset with fl := some (.memoryOutOfRange 0x1000#16) }).reply =
      .fault (.memoryOutOfRange 0x1000#16) := by decide

/-- T-F7. -/
theorem test_paused_step :
    (stepCommand { State.reset with rs := .paused }).reply = .notRunning := by decide

/-! ## Family 0x0 -/

/-- T-Z2, on one lit pixel. -/
theorem test_cls :
    see 0x05E0 (lit 3 2 State.reset) (fun t => (t.display.pixel 3 2, t.pc)) =
      some (false, 0x202#16) := by decide

/-- T-Z3. -/
theorem test_ret :
    see 0x00EE { State.reset with sp := 1, stack := State.reset.stack.set 0 0x204#16 }
      (fun t => (t.pc, t.sp.val)) = some (0x204#16, 0) := by decide

/-- T-Z4. -/
theorem test_ret_underflow :
    see 0x00EE State.reset (fun t => (t.pc, t.sp.val, t.fl)) =
      some (0x200#16, 0, some (.stackUnderflow 0x200#16)) := by decide

/-- T-Z6. -/
theorem test_unsupported0_silent :
    see 0x0000 State.reset (fun t => (t.pc, t.reply)) = some (0x202#16, .ok) := by decide

/-- T-Z7. -/
theorem test_unsupported0_strict :
    see 0x0123 (strict State.reset) (fun t => (t.pc, t.fl, t.reply)) =
      some (0x202#16, none, .unsupportedOpcode 0x0123#16 0x200#16) := by decide

/-! ## Jumps and calls -/

/-- T-J2. -/
theorem test_jp_odd : see 0x1345 State.reset (fun t => t.pc) = some 0x345#16 := by decide

/-- T-J5. -/
theorem test_call_last_entry :
    see 0x2300 { State.reset with sp := 11 } (fun t => (t.stack[11], t.sp.val, t.pc)) =
      some (0x202#16, 12, 0x300#16) := by decide

/-- T-J6. -/
theorem test_call_overflow :
    see 0x2300 { State.reset with sp := 12 } (fun t => (t.pc, t.sp.val, t.fl)) =
      some (0x200#16, 12, some (.stackOverflow 0x200#16)) := by decide

/-- T-J7. -/
theorem test_jpV0 : see 0xB300 (regs [(0x0#4, 0x04#8)]) (fun t => t.pc) = some 0x304#16 := by decide

/-- T-J9, first step: the sum is not reduced to 12 bits. -/
theorem test_jpV0_unmasked :
    see 0xBFFF (regs [(0x0#4, 0xFF#8)]) (fun t => t.pc) = some 0x10FE#16 := by decide

/-! ## Skips -/

/-- T-SK1 and T-SK2. -/
theorem test_seImm :
    see 0x3312 (regs [(0x3#4, 0x12#8)]) (fun t => t.pc) = some 0x204#16 ∧
    see 0x3312 (regs [(0x3#4, 0x13#8)]) (fun t => t.pc) = some 0x202#16 := by decide

/-- T-SK3 and T-SK4. -/
theorem test_sneImm :
    see 0x4312 (regs [(0x3#4, 0x12#8)]) (fun t => t.pc) = some 0x202#16 ∧
    see 0x4312 (regs [(0x3#4, 0x13#8)]) (fun t => t.pc) = some 0x204#16 := by decide

/-- T-SK6 and T-SK7. -/
theorem test_seReg :
    see 0x5120 (regs [(0x1#4, 0x07#8), (0x2#4, 0x08#8)]) (fun t => t.pc) = some 0x202#16 ∧
    see 0x512F (regs [(0x1#4, 0x07#8), (0x2#4, 0x07#8)]) (fun t => t.pc) = some 0x204#16 := by
  decide

/-- T-SK8 and T-SK9. -/
theorem test_sneReg :
    see 0x9120 (regs [(0x1#4, 0x07#8), (0x2#4, 0x08#8)]) (fun t => t.pc) = some 0x204#16 ∧
    see 0x9550 (regs [(0x5#4, 0x07#8)]) (fun t => t.pc) = some 0x202#16 := by decide

/-! ## Loads -/

/-- T-L2: VF as an ordinary register. -/
theorem test_ldImm : see 0x6FFF State.reset (fun t => t.getV 0xF#4) = some 0xFF#8 := by decide

/-- T-L4: wraps, no carry. -/
theorem test_addImm :
    see 0x7201 (regs [(0x2#4, 0xFF#8)]) (fun t => (t.getV 0x2#4, t.getV 0xF#4)) =
      some (0x00#8, 0x00#8) := by decide

/-- T-L6. -/
theorem test_ldI :
    see 0xAFFF State.reset (fun t => (t.index, t.pc)) = some (0x0FFF#16, 0x202#16) := by decide

/-! ## ALU -/

/-- T-A1. -/
theorem test_ldReg :
    see 0x8010 (regs [(0x1#4, 0x33#8)]) (fun t => t.getV 0x0#4) = some 0x33#8 := by decide

/-- T-A2: VF not reset. -/
theorem test_orReg :
    see 0x8011 (regs [(0x0#4, 0x0F#8), (0x1#4, 0xF0#8), (0xF#4, 0x05#8)]) v0f =
      some (0xFF#8, 0x05#8) := by decide

/-- T-A3. -/
theorem test_andReg :
    see 0x8012 (regs [(0x0#4, 0x3C#8), (0x1#4, 0x0F#8)]) (fun t => t.getV 0x0#4) =
      some 0x0C#8 := by decide

/-- T-A4. -/
theorem test_xorReg :
    see 0x8013 (regs [(0x0#4, 0xFF#8), (0x1#4, 0x0F#8)]) (fun t => t.getV 0x0#4) =
      some 0xF0#8 := by decide

/-- T-A6 and T-A7. -/
theorem test_addReg :
    see 0x8014 (regs [(0x0#4, 0xFF#8), (0x1#4, 0x01#8)]) v0f = some (0x00#8, 0x01#8) ∧
    see 0x8014 (regs [(0x0#4, 0xFE#8), (0x1#4, 0x01#8)]) v0f = some (0xFF#8, 0x00#8) := by decide

/-- T-A9 and T-A10, Sequential and Snapshot. -/
theorem test_addReg_vf :
    see 0x8F04 (regs [(0xF#4, 0xFF#8), (0x0#4, 0x01#8)]) v0f = some (0x01#8, 0x02#8) ∧
    see 0x8F04 (snap (regs [(0xF#4, 0xFF#8), (0x0#4, 0x01#8)])) v0f = some (0x01#8, 0x00#8) ∧
    see 0x80F4 (regs [(0x0#4, 0x10#8), (0xF#4, 0x20#8)]) v0f = some (0x10#8, 0x00#8) ∧
    see 0x80F4 (snap (regs [(0x0#4, 0x10#8), (0xF#4, 0x20#8)])) v0f = some (0x30#8, 0x00#8) := by
  decide

/-- T-A12 and T-A13: borrow, and no borrow on equality. -/
theorem test_sub :
    see 0x8015 (regs [(0x0#4, 0x05#8), (0x1#4, 0x0A#8)]) v0f = some (0xFB#8, 0x01#8) ∧
    see 0x8015 (regs [(0x0#4, 0x0A#8), (0x1#4, 0x0A#8)]) v0f = some (0x00#8, 0x00#8) := by decide

/-- T-A15 and T-A16, Sequential and Snapshot. -/
theorem test_sub_vf :
    see 0x8F05 (regs [(0xF#4, 0x05#8), (0x0#4, 0x0A#8)]) v0f = some (0x0A#8, 0xF7#8) ∧
    see 0x8F05 (snap (regs [(0xF#4, 0x05#8), (0x0#4, 0x0A#8)])) v0f = some (0x0A#8, 0xFB#8) ∧
    see 0x80F5 (regs [(0x0#4, 0x0A#8), (0xF#4, 0x05#8)]) v0f = some (0x0A#8, 0x00#8) ∧
    see 0x80F5 (snap (regs [(0x0#4, 0x0A#8), (0xF#4, 0x05#8)])) v0f = some (0x05#8, 0x00#8) := by
  decide

/-- T-A18 and T-A19 (Y ignored). -/
theorem test_shr :
    see 0x8406 (regs [(0x4#4, 0x05#8)]) v4f = some (0x02#8, 0x01#8) ∧
    see 0x8476 (regs [(0x4#4, 0x80#8)]) v4f = some (0x40#8, 0x00#8) := by decide

/-- T-A20, Sequential and Snapshot. -/
theorem test_shr_vf :
    see 0x8F06 (regs [(0xF#4, 0x03#8)]) (fun t => t.getV 0xF#4) = some 0x00#8 ∧
    see 0x8F06 (snap (regs [(0xF#4, 0x03#8)])) (fun t => t.getV 0xF#4) = some 0x01#8 := by decide

/-- T-A21 and T-A22. -/
theorem test_subn :
    see 0x8017 (regs [(0x0#4, 0x0A#8), (0x1#4, 0x05#8)]) v0f = some (0xFB#8, 0x01#8) ∧
    see 0x8017 (regs [(0x0#4, 0x05#8), (0x1#4, 0x0A#8)]) v0f = some (0x05#8, 0x00#8) := by decide

/-- T-A24 and T-A25, Sequential and Snapshot. -/
theorem test_subn_vf :
    see 0x8F07 (regs [(0xF#4, 0x0A#8), (0x0#4, 0x05#8)]) v0f = some (0x05#8, 0x04#8) ∧
    see 0x8F07 (snap (regs [(0xF#4, 0x0A#8), (0x0#4, 0x05#8)])) v0f = some (0x05#8, 0xFB#8) ∧
    see 0x80F7 (regs [(0x0#4, 0x0A#8), (0xF#4, 0x05#8)]) v0f = some (0xF7#8, 0x01#8) ∧
    see 0x80F7 (snap (regs [(0x0#4, 0x0A#8), (0xF#4, 0x05#8)])) v0f = some (0xFB#8, 0x01#8) := by
  decide

/-- T-A26 and T-A27. -/
theorem test_shl :
    see 0x8408 (regs [(0x4#4, 0x81#8)]) v4f = some (0x02#8, 0x01#8) ∧
    see 0x8408 (regs [(0x4#4, 0x7F#8)]) v4f = some (0xFE#8, 0x00#8) := by decide

/-- T-A29, Sequential and Snapshot. -/
theorem test_shl_vf :
    see 0x8F08 (regs [(0xF#4, 0x41#8)]) (fun t => t.getV 0xF#4) = some 0x00#8 ∧
    see 0x8F08 (snap (regs [(0xF#4, 0x41#8)])) (fun t => t.getV 0xF#4) = some 0x82#8 := by decide

/-- T-A30: 8XYE is no shift under the default. -/
theorem test_unsupported8 :
    see 0x840E (regs [(0x4#4, 0x81#8)]) (fun t => (v4f t, t.pc)) =
      some ((0x81#8, 0x00#8), 0x202#16) := by decide

/-! ## Draw -/

/-- T-D2: clipped at the right edge, no wrap to column 0. -/
theorem test_drw_clips :
    see 0xD011 (sprite [0xFF#8] (regs [(0x0#4, 62#8)])) (fun t =>
      (t.display.pixel 61 0, t.display.pixel 62 0, t.display.pixel 63 0, t.display.pixel 0 0,
        t.getV 0xF#4)) = some (false, true, true, false, 0x00#8) := by decide

/-- T-D5 and T-D12: a collision, and the origin read from VF before it is reset. -/
theorem test_drw_collision_and_vf_origin :
    see 0xD011 (lit 0 0 (sprite [0x80#8] State.reset)) (fun t =>
      (t.display.pixel 0 0, t.getV 0xF#4)) = some (false, 0x01#8) ∧
    see 0xDF11 (sprite [0x80#8] (regs [(0xF#4, 0x05#8), (0x1#4, 0x03#8)])) (fun t =>
      (t.display.pixel 5 3, t.getV 0xF#4)) = some (true, 0x00#8) := by decide

/-- T-D8 and T-D10: height 0 clears VF; a range past memory faults and draws nothing. -/
theorem test_drw_edges :
    see 0xD000 (regs [(0xF#4, 0x07#8)]) (fun t => t.getV 0xF#4) = some 0x00#8 ∧
    see 0xD002 { State.reset with index := 0x0FFF#16 } (fun t => (t.pc, t.fl)) =
      some (0x200#16, some (.memoryOutOfRange 0x1000#16)) := by decide

/-- T-D13: the top row of glyph 0, drawn from the font at I = 0. -/
theorem test_drw_font :
    see 0xD005 State.reset (fun t =>
      (t.display.pixel 3 0, t.display.pixel 4 0, t.display.pixel 1 1, t.display.pixel 3 1)) =
      some (true, false, false, true) := by decide

/-! ## Unsupported families -/

/-- T-U1, T-U2 and T-U3. -/
theorem test_unsupported_families :
    see 0xC0FF State.reset (fun t => (t.pc, t.reply)) = some (0x202#16, .ok) ∧
    see 0xE09E { State.reset with keypad := State.reset.keypad.set 5 true } (fun t => t.pc) =
      some 0x202#16 ∧
    see 0xF007 { State.reset with dt := 0x10#8 } (fun t => t.getV 0x0#4) = some 0x00#8 := by decide

/-- T-U4. -/
theorem test_unsupportedF_strict :
    see 0xF029 (strict State.reset) (fun t => (t.pc, t.fl, t.reply)) =
      some (0x202#16, none, .unsupportedOpcode 0xF029#16 0x200#16) := by decide

/-! ## Host commands -/

/-- T-H1 and T-H2. -/
theorem test_tick :
    ((tick { State.reset with dt := 0x02#8 }).dt, (tick { State.reset with dt := 0x02#8 }).st,
      (tick { State.reset with st := 0x01#8 }).st) = (0x01#8, 0x00#8, 0x00#8) := by decide

/-- T-H5. -/
theorem test_quit_then_pause :
    (pauseToggle (quit { State.reset with rs := .paused })).rs = .halted := by decide

/-- T-H7. -/
theorem test_setKey : (setKey 0xA#4 true State.reset).keypad[10] = true := by decide

/-- T-H8. -/
theorem test_late_load :
    load [0x12#8] { State.reset with stepped := true } =
      { State.reset with stepped := true, reply := .loadRefused } := rfl

/-- E6, the ROM bytes as created. -/
theorem test_create :
    (create Config.default [0x60#8, 0x0A#8]).map (fun s => (s.mem.read 0x200, s.mem.read 0x201,
      s.mem.read 0x202, s.mem.read 0x04F)) = .ok (0x60#8, 0x0A#8, 0x00#8, 0x80#8) := by rfl

/-- E8: a ROM of 3585 bytes gives no machine, at creation and at reset, and RomTooLarge is
returned with the length. -/
theorem test_rom_too_large (cfg : Config) (s : State) (rom : List Byte) (h : rom.length = 3585) :
    create cfg rom = .error (.romTooLarge 3585) ∧
    command (.reset rom) s = .error (.romTooLarge 3585) ∧
    (Reply.romTooLarge 3585).code = some 6 :=
  ⟨create_eq_error.2 ⟨by rw [h]; decide, by rw [h]⟩,
    command_eq_error.2 ⟨rom, rfl, by rw [h]; decide, by rw [h]⟩, rfl⟩

/-! ## Witnesses: states and operands that meet the obligations' hypotheses -/

/-- A state other than State.reset that meets the invariant, with a latched fault if asked for. -/
def good : State := { State.reset with pc := 0x202#16 }

theorem good_inv : good.Inv where
  memCanonical := rfl
  fillCanonical := rfl
  fontIntact := fun a h => by
    show Memory.unlisted a = conventionalFont[a]
    rw [Memory.unlisted, dif_pos h]
  indexInRange := by decide
  pcInRange := by decide
  returnsInRange := fun k _ hk => absurd hk (Nat.not_lt_zero k)
  latchExplained := fun f h => by cases h

/-- `good` with the fault that a RET at its pc raises latched. -/
def latched : State :=
  { good with fl := some (.stackUnderflow 0x202#16), stepped := true,
              reply := .fault (.stackUnderflow 0x202#16) }

theorem latched_inv : latched.Inv where
  memCanonical := good_inv.memCanonical
  fillCanonical := good_inv.fillCanonical
  fontIntact := good_inv.fontIntact
  indexInRange := good_inv.indexInRange
  pcInRange := good_inv.pcInRange
  returnsInRange := good_inv.returnsInRange
  latchExplained := fun f h => by
    obtain rfl : Fault.stackUnderflow 0x202#16 = f := Option.some.inj h
    exact ⟨⟨rfl, rfl⟩, rfl⟩

/-- DecodeOfEncodeIsTheInstruction. -/
theorem witness_wf :
    (Instr.unsupported0 0xEFF#12).wf Config.default = true ∧
    (Instr.unsupported8 0xF#4 0xF#4 0x9#4).wf Config.default = true := by decide

/-- StepRunsTheDecodedInstruction, at the last pc it covers. -/
theorem witness_step :
    ({ State.reset with pc := 0x0FFE#16 } : State).rs = .running ∧
    ({ State.reset with pc := 0x0FFE#16 } : State).fl = none ∧
    ({ State.reset with pc := 0x0FFE#16 } : State).pc.toNat ≤ 0x0FFE := by decide

/-- FetchPastMemoryFaults, at the first pc it covers. -/
theorem witness_fetch_fault :
    ({ State.reset with pc := 0x0FFF#16 } : State).rs = .running ∧
    ({ State.reset with pc := 0x0FFF#16 } : State).fl = none ∧
    0x0FFF ≤ ({ State.reset with pc := 0x0FFF#16 } : State).pc.toNat := by decide

/-- GatedStepsChangeNothing, both clauses (a fault latched outside Running falls under the first). -/
theorem witness_gates :
    ({ latched with rs := .halted } : State).rs ≠ .running ∧
    latched.rs = .running ∧ latched.fl = some (.stackUnderflow 0x202#16) := by decide

/-- RunningStepsAlwaysAnswer. -/
theorem witness_running : State.reset.rs = .running ∧ State.reset.fl = none := ⟨rfl, rfl⟩

/-- RetPopsOrUnderflows, both clauses, the first at both ends of its range. -/
theorem witness_ret :
    0 < ({ State.reset with sp := 1 } : State).sp.val ∧
    0 < ({ State.reset with sp := 12 } : State).sp.val ∧ State.reset.sp.val = 0 := by decide

/-- CallPushesOrOverflows and RetUndoesCall, the first clause at both ends of its range. -/
theorem witness_call :
    State.reset.sp.val < 12 ∧ ({ State.reset with sp := 11 } : State).sp.val < 12 ∧
    ({ State.reset with sp := 12 } : State).sp.val = 12 := by decide

/-- TwelveCallsSucceedAndTheNextOverflows, with no target and with twelve. -/
theorem witness_twelve_calls :
    State.reset.sp.val = 0 ∧ ([] : List Addr12).length ≤ 12 ∧
    (List.replicate 12 0x200#12).length = 12 := by decide

/-- DrwXorsTheClippedSprite: height 0, and the last range inside memory. -/
theorem witness_drw_in_range :
    (0x0#4).toNat = 0 ∧
    ({ State.reset with index := 0x0FFF#16 } : State).index.toNat + (0x1#4).toNat ≤ 0x1000 := by
  decide

/-- DrwXorsTheClippedSprite: a draw that collides in the last corner, and one that does not. -/
theorem witness_drw_collision :
    Collides (lit 63 31 (sprite [0x80#8] State.reset)) 1 63 31 ∧
    ¬ Collides State.reset 15 0 0 := by
  refine ⟨⟨63, 31, by decide, by decide, by decide, by decide⟩, ?_⟩
  rintro ⟨x, y, -, -, -, h⟩
  rw [show State.reset.display.pixel x y = false from Display.pixel_clear x y] at h
  cases h

/-- DrwPastMemoryFaults, one byte past the end. -/
theorem witness_drw_fault :
    0 < (0x2#4).toNat ∧
    0x1000 < ({ State.reset with index := 0x0FFF#16 } : State).index.toNat + (0x2#4).toNat := by
  decide

/-- DrawingTwiceErases: its hypotheses, and a draw with and one without a set bit on the display. -/
theorem witness_draw_twice :
    (0x0#4 : Nibble) ≠ 0xF#4 ∧ (0xE#4 : Nibble) ≠ 0xF#4 ∧
    (sprite [0x80#8] State.reset).index.toNat + (0x1#4).toNat ≤ 0x1000 ∧
    (∀ px py, px < dispW → py < dispH →
      (sprite [0x80#8] State.reset).display.pixel px py = false) ∧
    spriteBit (sprite [0x80#8] State.reset) 1 63 31 63 31 = true ∧
    (∀ px py, spriteBit (sprite [0x00#8] State.reset) 0 0 0 px py = false) := by
  refine ⟨by decide, by decide, by decide, fun px py _ _ => Display.pixel_clear px py, by decide,
    fun px py => ?_⟩
  have h : (decide (0 ≤ py) && decide (py < 0 + 0)) = false := by simp
  simp [spriteBit]

/-- OnlyAdvances, both modes. -/
theorem witness_unsupported :
    State.reset.cfg.unsupportedMode = .silent ∧
    (strict State.reset).cfg.unsupportedMode = .strict := ⟨rfl, rfl⟩

/-- NoInstructionWritesMemory, NoInstructionWritesTheHostSide, RegistersOutsideTheWriteSetAreKept and
IndexStackAndDisplayHaveTheirWriters: an instruction and a step that answer a next state. The
premises of the clauses about I, the stack and the display are met as well. -/
theorem witness_next :
    (∃ t, exec (.ldI 0xFFF#12) State.reset = .next t ∧ t.index ≠ State.reset.index) ∧
    (∃ t, exec (.call 0x300#12) State.reset = .next t ∧ ¬ KeepsStack State.reset t) ∧
    (∃ t, exec (.cls 0x0#4) (lit 0 0 State.reset) = .next t ∧
      t.display ≠ (lit 0 0 State.reset).display) ∧
    (∃ t, step State.reset = .next t) := by
  refine ⟨⟨_, rfl, by decide⟩, ⟨_, rfl, fun h => absurd (congrArg Fin.val h.1) (by decide)⟩,
    ⟨_, rfl, fun h => ?_⟩, ⟨_, rfl⟩⟩
  have := congrArg (fun d => Display.pixel d 0 0) h
  exact absurd this (by decide)

/-- RegistersOutsideTheReadSetAreNotObserved: two states that differ in V[2], which ADD_reg V0, V1
does not read. -/
theorem witness_reads :
    (∀ k ∈ Instr.reads (.addReg 0x0#4 0x1#4),
      ({ State.reset with v := State.reset.v.set 2 0x55#8 } : State).getV k =
        State.reset.getV k) ∧
    (∃ t, exec (.addReg 0x0#4 0x1#4) State.reset = .next t ∧ ∀ f, t.reply ≠ .fault f) ∧
    (∃ t, exec (.addReg 0x0#4 0x1#4)
      { State.reset with v := State.reset.v.set 2 0x55#8 } = .next t) := by
  refine ⟨by decide, ⟨_, rfl, fun f h => by cases h⟩, ⟨_, rfl⟩⟩

/-- PcGoesWhereTheInstructionSays: a JP and a RET that do not fault. -/
theorem witness_pc :
    (∃ t, exec (.jp 0x234#12) State.reset = .next t ∧ ∀ f, t.reply ≠ .fault f) ∧
    (∃ t, exec (.ret 0x0#4) { State.reset with sp := 1 } = .next t ∧
      ∀ f, t.reply ≠ .fault f) := by
  refine ⟨⟨_, rfl, fun f h => by cases h⟩, ⟨_, rfl, fun f h => by cases h⟩⟩

/-- OnlyCallRetAndDrwFault: each of the three faults. -/
theorem witness_faults :
    (∃ t, exec (.call 0x300#12) { State.reset with sp := 12 } = .next t ∧
      t.reply = .fault (.stackOverflow 0x200#16)) ∧
    (∃ t, exec (.ret 0x0#4) State.reset = .next t ∧
      t.reply = .fault (.stackUnderflow 0x200#16)) ∧
    (∃ t, exec (.drw 0x0#4 0x0#4 0x2#4) { State.reset with index := 0x0FFF#16 } = .next t ∧
      t.reply = .fault (.memoryOutOfRange 0x1000#16)) := ⟨⟨_, rfl, rfl⟩, ⟨_, rfl, rfl⟩, ⟨_, rfl, rfl⟩⟩

/-- FaultsArePrecise: a step that latches a fault, and one that does not. -/
theorem witness_precise :
    (∃ t, step { State.reset with pc := 0x0FFF#16 } = .next t ∧
      t.fl = some (.memoryOutOfRange 0x1000#16)) ∧
    (∃ t, step State.reset = .next t ∧ t.fl = none) := ⟨⟨_, rfl, rfl⟩, ⟨_, rfl, rfl⟩⟩

/-- EveryStepKeepsTheInvariant. -/
theorem witness_inv_step : good.Inv ∧ ∃ t, step good = .next t := ⟨good_inv, _, rfl⟩

/-- EveryCommandSequenceKeepsTheInvariant, both clauses. -/
theorem witness_inv_commands :
    Memory.wf Config.default.memFill = true ∧
    (∃ s, create Config.default [0x60#8, 0x0A#8] = .ok s) ∧
    good.Inv ∧ (∃ t, runCommands [.step, .tick, .pauseToggle, .quit, .reset [0x12#8]] good =
      .ok t) := ⟨rfl, ⟨_, rfl⟩, good_inv, ⟨_, rfl⟩⟩

/-- LatchedFaultStaysUntilReset. -/
theorem witness_latched :
    latched.Inv ∧ latched.fl = some (.stackUnderflow 0x202#16) ∧
    (∀ c ∈ [Command.step, .tick, .load [0x12#8]], c.isReset = false) ∧
    ∃ t, runCommands [.step, .tick, .load [0x12#8]] latched = .ok t :=
  ⟨latched_inv, rfl, by decide, _, rfl⟩

/-- HaltedStaysUntilReset, its second clause's premise included. -/
theorem witness_halted :
    ({ latched with rs := .halted } : State).rs = .halted ∧
    ({ latched with rs := .halted } : State).stepped = true ∧
    (∀ c ∈ [Command.pauseToggle, .step], c.isReset = false) ∧
    ∃ t, runCommands [.pauseToggle, .step] { latched with rs := .halted } = .ok t :=
  ⟨rfl, rfl, by decide, _, rfl⟩

/-- CreationLaysOutMemory and ResetCreatesTheMachineAgain: the empty ROM and the longest one. -/
theorem witness_create :
    Memory.wf Config.default.memFill = true ∧ ([] : List Byte).length ≤ 3584 ∧
    (List.replicate 3584 0x12#8).length ≤ 3584 := 
  ⟨rfl, Nat.zero_le _, Nat.le_of_eq List.length_replicate⟩

/-- LoadCopiesTheRomOrIsTooLarge and LateLoadsAreRefusedAndLongRomsAbort: each clause at the edge of
its range. -/
theorem witness_load :
    State.reset.mem.wf = true ∧ State.reset.stepped = false ∧
    (List.replicate 3584 0x12#8).length ≤ 3584 ∧ 3584 < (List.replicate 3585 0x12#8).length ∧
    latched.stepped = true := ⟨rfl, rfl, Nat.le_of_eq List.length_replicate,
    Nat.lt_of_lt_of_eq (Nat.lt_succ_self 3584) List.length_replicate.symm, rfl⟩

/-- RunStateFollowsTheTable: each run state. -/
theorem witness_run_states :
    State.reset.rs = .running ∧ ({ State.reset with rs := .paused } : State).rs = .paused ∧
    ({ State.reset with rs := .halted } : State).rs = .halted := ⟨rfl, rfl, rfl⟩

end Sys2Proof.Tests
end

/-!
Decode against the dispatch table (spec/30_encoding.md rules R101, R104): the conditions and the
operands of `decode`, read as quotients and remainders of the opcode's number.
-/

namespace Sys2Proof

/-! ### A field's condition, as a condition on the opcode's number -/

theorem fieldF_eq_iff (w : Word) (k : Nibble) : fieldF w = k ↔ w.toNat / 4096 = k.toNat := by
  rw [← BitVec.toNat_inj, fieldF_toNat]

theorem fieldN_eq_iff (w : Word) (k : Nibble) : fieldN w = k ↔ w.toNat % 16 = k.toNat := by
  rw [← BitVec.toNat_inj, fieldN_toNat]

theorem fieldNN_eq_iff (w : Word) (k : Byte) : fieldNN w = k ↔ w.toNat % 256 = k.toNat := by
  rw [← BitVec.toNat_inj, fieldNN_toNat]

/-! ### A field as an operand, from the opcode's number -/

theorem ofNat_eq_fieldX (w : Word) : BitVec.ofNat 4 (w.toNat / 256 % 16) = fieldX w := by
  rw [← fieldX_toNat, BitVec.ofNat_toNat, BitVec.setWidth_eq]

theorem ofNat_eq_fieldY (w : Word) : BitVec.ofNat 4 (w.toNat / 16 % 16) = fieldY w := by
  rw [← fieldY_toNat, BitVec.ofNat_toNat, BitVec.setWidth_eq]

theorem ofNat_eq_fieldN (w : Word) : BitVec.ofNat 4 (w.toNat % 16) = fieldN w := by
  rw [← fieldN_toNat, BitVec.ofNat_toNat, BitVec.setWidth_eq]

theorem ofNat_eq_fieldNN (w : Word) : BitVec.ofNat 8 (w.toNat % 256) = fieldNN w := by
  rw [← fieldNN_toNat, BitVec.ofNat_toNat, BitVec.setWidth_eq]

theorem ofNat_eq_fieldNNN (w : Word) : BitVec.ofNat 12 (w.toNat % 4096) = fieldNNN w := by
  rw [← fieldNNN_toNat, BitVec.ofNat_toNat, BitVec.setWidth_eq]

/-- Settles O2: with the operands named as fields, the table and `decode` are the same chain of
conditions, each a condition on a field; only SHL's sub-opcode needs the configuration's two cases. -/
theorem decodeFollowsDispatchTable : Obligations.DecodeFollowsDispatchTable := by
  intro cfg w F X Y N NN NNN
  have hX : X = fieldX w := ofNat_eq_fieldX w
  have hY : Y = fieldY w := ofNat_eq_fieldY w
  have hN : BitVec.ofNat 4 N = fieldN w := ofNat_eq_fieldN w
  have hNN : BitVec.ofNat 8 NN = fieldNN w := ofNat_eq_fieldNN w
  have hNNN : NNN = fieldNNN w := ofNat_eq_fieldNNN w
  rw [hX, hY, hN, hNN, hNNN]
  simp only [decode, decodeFamily0, decodeFamily8, fieldF_eq_iff, fieldN_eq_iff, fieldNN_eq_iff]
  cases cfg.shlSubop <;> rfl

end Sys2Proof

/-!
CLS (spec/40_family0_system.md rule R140): its opcodes, and the state it leaves.
-/

namespace Sys2Proof

/-- Family 0x0 is selected on the low byte alone, under every configuration (rule R104). -/
theorem decode_family0_x_nn (cfg : Config) (x : Nibble) (nn : Byte) :
    decode cfg (0x0#4 ++ x ++ nn) =
      if nn = 0xE0#8 then .cls x
      else if nn = 0xEE#8 then .ret x
      else .unsupported0 (fieldNNN (0x0#4 ++ x ++ nn)) := by
  rw [decode, fieldF_x_nn, if_pos rfl, decodeFamily0, fieldNN_x_nn, fieldX_x_nn]

end Sys2Proof

namespace Sys2Proof.Machine

theorem exec_cls (x : Nibble) (s : State) :
    exec (.cls x) s = complete { s.advance with display := Display.clear } := rfl

/-- Equal register files keep every register. -/
theorem KeepsRegsBut.of_v_eq {s t : State} (h : t.v = s.v) (ws : List Nibble) :
    KeepsRegsBut ws s t := fun k _ => State.getV_congr h k

/-- Equal memories keep every byte. -/
theorem KeepsMemory.of_mem_eq {s t : State} (h : t.mem = s.mem) : KeepsMemory s t :=
  ⟨h, fun a => by rw [h]⟩

/-- Settles O11: CLS completes on the advanced state with the cleared display, and every other
component of that state is the one before the step. -/
theorem clsClearsTheDisplay : Obligations.ClsClearsTheDisplay := by
  intro x s
  have hdecode : decode s.cfg (0x0#4 ++ x ++ 0xE0#8) = .cls x := by
    rw [decode_family0_x_nn, if_pos rfl]
  refine ⟨hdecode, _, (exec_cls x s).trans (complete_eq_next.2 rfl), ?_⟩
  have hclear : ∀ px py, px < dispW → py < dispH → Display.clear.pixel px py = false :=
    fun px py _ _ => Display.pixel_clear px py
  have hregs := KeepsRegsBut.of_v_eq (State.advance_v s) []
  have hmem := KeepsMemory.of_mem_eq (State.advance_mem s)
  exact ⟨hclear, State.advance_pc s, hregs, State.advance_index s,
    ⟨State.advance_sp s, State.advance_stack s⟩, hmem,
    ⟨State.advance_cfg s, State.advance_dt s, State.advance_st s, State.advance_keypad s,
      State.advance_rs s⟩,
    ⟨rfl, State.advance_fl s, rfl⟩⟩

end Sys2Proof.Machine

/-!
JP (spec/41_jump_call.md rule R160): its opcode, and the state it leaves.
-/

namespace Sys2Proof

/-- Family 0x1 is JP alone, under every configuration (rule R104). -/
theorem decode_family1_nnn (cfg : Config) (nnn : Addr12) :
    decode cfg (0x1#4 ++ nnn) = .jp nnn := by
  rw [decode, fieldF_nnn, if_neg (by decide), if_pos rfl, fieldNNN_nnn]

end Sys2Proof

namespace Sys2Proof.Machine

theorem exec_jp (nnn : Addr12) (s : State) :
    exec (.jp nnn) s = complete { s with pc := absoluteAddress nnn } := rfl

/-- A 12-bit address fits a word: no bit of it is lost (rule R102). -/
theorem absoluteAddress_toNat (nnn : Addr12) : (absoluteAddress nnn).toNat = nnn.toNat :=
  BitVec.toNat_setWidth_of_le (by decide)

/-- A step that writes pc alone, whatever the value, completes with everything else as before. -/
theorem KeepsAllButPcAnd.of_complete_pc {s t : State} {p : Word}
    (h : complete { s with pc := p } = .next t) : KeepsAllButPcAnd [] s t := by
  obtain rfl := complete_eq_next.1 h
  exact ⟨KeepsRegsBut.of_v_eq rfl [], rfl, ⟨rfl, rfl⟩, rfl, KeepsMemory.of_mem_eq rfl,
    ⟨rfl, rfl, rfl, rfl, rfl⟩, ⟨rfl, rfl, rfl⟩⟩

/-- Settles O13: JP completes on the state with pc = NNN, and writing pc alone keeps the rest. -/
theorem jpJumpsToItsAddress : Obligations.JpJumpsToItsAddress := by
  intro nnn s
  have hnext := (exec_jp nnn s).trans (complete_eq_next.2 rfl)
  exact ⟨decode_family1_nnn s.cfg nnn, _, hnext, absoluteAddress_toNat nnn,
    KeepsAllButPcAnd.of_complete_pc hnext⟩

end Sys2Proof.Machine

/-!
The immediate skips (spec/42_skip.md rules R180, R181, R184): their opcodes, where a skip takes pc,
and what it keeps.
-/

namespace Sys2Proof

/-- Family 0x3 is SE_imm alone, under every configuration (rule R104). -/
theorem decode_family3_x_nn (cfg : Config) (x : Nibble) (nn : Byte) :
    decode cfg (0x3#4 ++ x ++ nn) = .seImm x nn := by
  rw [decode, fieldF_x_nn, if_neg (by decide), if_neg (by decide), if_neg (by decide), if_pos rfl,
    fieldX_x_nn, fieldNN_x_nn]

/-- Family 0x4 is SNE_imm alone, under every configuration (rule R104). -/
theorem decode_family4_x_nn (cfg : Config) (x : Nibble) (nn : Byte) :
    decode cfg (0x4#4 ++ x ++ nn) = .sneImm x nn := by
  rw [decode, fieldF_x_nn, if_neg (by decide), if_neg (by decide), if_neg (by decide),
    if_neg (by decide), if_pos rfl, fieldX_x_nn, fieldNN_x_nn]

end Sys2Proof

namespace Sys2Proof.Machine

theorem exec_seImm (x : Nibble) (nn : Byte) (s : State) :
    exec (.seImm x nn) s = complete (s.advance.skipIf (s.getV x == nn)) := rfl

theorem exec_sneImm (x : Nibble) (nn : Byte) (s : State) :
    exec (.sneImm x nn) s = complete (s.advance.skipIf (s.getV x != nn)) := rfl

/-- Rule R184: measured from before the fetch, a skip is 4 when taken and 2 when not. -/
theorem State.advance_skipIf_pc (s : State) (c : Bool) :
    (s.advance.skipIf c).pc = if c = true then s.pc + 4#16 else s.pc + 2#16 := by
  have htwice : s.pc + 2#16 + 2#16 = s.pc + 4#16 := BitVec.add_assoc ..
  rw [State.skipIf_pc, State.advance_pc, htwice]

/-- The advance and a skip, taken or not, write pc alone. -/
theorem State.advance_skipIf_eq (s : State) (c : Bool) :
    s.advance.skipIf c = { s with pc := (s.advance.skipIf c).pc } := by
  cases c <;> rfl

/-- Rule R184 for a whole step: a step that only skips on c answers a next state, 4 or 2 further,
with everything but pc as before. -/
theorem exists_next_of_skip {i : Instr} {s : State} {c : Bool}
    (hexec : exec i s = complete (s.advance.skipIf c)) :
    ∃ t, exec i s = .next t ∧ t.pc = (if c = true then s.pc + 4#16 else s.pc + 2#16) ∧
      KeepsAllButPcAnd [] s t := by
  have hcomplete := complete_eq_next (s := { s with pc := (s.advance.skipIf c).pc }).2 rfl
  rw [State.advance_skipIf_eq] at hexec
  exact ⟨_, hexec.trans hcomplete, State.advance_skipIf_pc s c,
    KeepsAllButPcAnd.of_complete_pc hcomplete⟩

/-- Settles O18: each immediate skip is the skip law at its own condition; SNE_imm's is the
negation of SE_imm's, so its two distances stand the other way round. -/
theorem immediateSkipsSkipOnTheirCondition : Obligations.ImmediateSkipsSkipOnTheirCondition := by
  intro x nn s
  obtain ⟨t, hse, hsePc, hseKeeps⟩ := exists_next_of_skip (exec_seImm x nn s)
  obtain ⟨u, hsne, hsnePc, hsneKeeps⟩ := exists_next_of_skip (exec_sneImm x nn s)
  simp only [beq_iff_eq] at hsePc
  simp only [bne_iff_ne, ite_not] at hsnePc
  exact ⟨⟨decode_family3_x_nn s.cfg x nn, t, hse, hsePc, hseKeeps⟩,
    ⟨decode_family4_x_nn s.cfg x nn, u, hsne, hsnePc, hsneKeeps⟩⟩

end Sys2Proof.Machine

/-!
The immediate loads and adds (spec/43_register_load.md rules R200, R201, R204): their opcodes, and
what a step that writes one register, or I alone, leaves.
-/

namespace Sys2Proof

/-- Family 0x6 is LD_imm alone, under every configuration (rule R104). -/
theorem decode_family6_x_nn (cfg : Config) (x : Nibble) (nn : Byte) :
    decode cfg (0x6#4 ++ x ++ nn) = .ldImm x nn := by
  rw [decode, fieldF_x_nn, fieldX_x_nn, fieldNN_x_nn]
  rfl

/-- Family 0x7 is ADD_imm alone, under every configuration (rule R104). -/
theorem decode_family7_x_nn (cfg : Config) (x : Nibble) (nn : Byte) :
    decode cfg (0x7#4 ++ x ++ nn) = .addImm x nn := by
  rw [decode, fieldF_x_nn, fieldX_x_nn, fieldNN_x_nn]
  rfl

/-- Family 0xA is LD_I alone, under every configuration (rule R104). -/
theorem decode_familyA_nnn (cfg : Config) (nnn : Addr12) :
    decode cfg (0xA#4 ++ nnn) = .ldI nnn := by
  rw [decode, fieldF_nnn, fieldNNN_nnn]
  rfl

end Sys2Proof

namespace Sys2Proof.Machine

theorem exec_ldImm (x : Nibble) (nn : Byte) (s : State) :
    exec (.ldImm x nn) s = complete (s.advance.setV x nn) := rfl

theorem exec_addImm (x : Nibble) (nn : Byte) (s : State) :
    exec (.addImm x nn) s = complete (s.advance.setV x (s.getV x + nn)) := rfl

theorem exec_ldI (nnn : Addr12) (s : State) :
    exec (.ldI nnn) s = complete { s.advance with index := absoluteAddress nnn } := rfl

/-- Writing a register keeps every other one. -/
theorem KeepsRegsBut.advance_setV (s : State) (x : Nibble) (b : Byte) :
    KeepsRegsBut [x] s (s.advance.setV x b) := by
  intro k hk
  have hne : k ≠ x := fun h => hk (List.mem_singleton.2 h)
  rw [State.getV_setV_of_ne s.advance b hne, State.getV_advance]

/-- A step that only writes b into V[x] answers a next state with that value in V[x], 2 further,
with everything but pc and V[x] as before. -/
theorem exists_next_of_setV {i : Instr} {s : State} {x : Nibble} {b : Byte}
    (hexec : exec i s = complete (s.advance.setV x b)) :
    ∃ t, exec i s = .next t ∧ t.getV x = b ∧ t.pc = s.pc + 2#16 ∧ KeepsAllButPcAnd [x] s t := by
  refine ⟨_, hexec.trans (complete_eq_next.2 rfl), State.getV_setV_self s.advance x b, rfl, ?_⟩
  exact ⟨KeepsRegsBut.advance_setV s x b, rfl, ⟨rfl, rfl⟩, rfl, KeepsMemory.of_mem_eq rfl,
    ⟨rfl, rfl, rfl, rfl, rfl⟩, ⟨rfl, rfl, rfl⟩⟩

/-- Settles O20: LD_imm is the register-write law at NN. -/
theorem ldImmLoadsItsImmediate : Obligations.LdImmLoadsItsImmediate := by
  intro x nn s
  exact ⟨decode_family6_x_nn s.cfg x nn, exists_next_of_setV (exec_ldImm x nn s)⟩

/-- Settles O21: ADD_imm is the register-write law at the byte sum, which is the sum of the numbers
modulo 2^8. -/
theorem addImmWrapsWithoutCarry : Obligations.AddImmWrapsWithoutCarry := by
  intro x nn s
  obtain ⟨t, hnext, hsum, hpc, hkeeps⟩ := exists_next_of_setV (exec_addImm x nn s)
  have hmod : (t.getV x).toNat = ((s.getV x).toNat + nn.toNat) % 256 := by
    rw [hsum, BitVec.toNat_add]
  exact ⟨decode_family7_x_nn s.cfg x nn, t, hnext, hmod, hpc, hkeeps⟩

/-- Settles O23: LD_I completes on the advanced state with I = NNN, and every other component of
that state is the one before the step. -/
theorem ldILoadsTheIndex : Obligations.LdILoadsTheIndex := by
  intro nnn s
  refine ⟨decode_familyA_nnn s.cfg nnn, _, (exec_ldI nnn s).trans (complete_eq_next.2 rfl), ?_⟩
  exact ⟨absoluteAddress_toNat nnn, State.advance_pc s, KeepsRegsBut.of_v_eq (State.advance_v s) [],
    ⟨State.advance_sp s, State.advance_stack s⟩, State.advance_display s,
    KeepsMemory.of_mem_eq (State.advance_mem s),
    ⟨State.advance_cfg s, State.advance_dt s, State.advance_st s, State.advance_keypad s,
      State.advance_rs s⟩,
    ⟨rfl, State.advance_fl s, rfl⟩⟩

end Sys2Proof.Machine

/-!
The register-register ALU (spec/44_alu_8xy.md rules R220 to R228): its opcodes, the flags and the
results as numbers, and what a flag-writing step leaves.
-/

namespace Sys2Proof

/-- Family 0x8 is selected on N alone; only SHL's sub-opcode depends on the configuration (rule
R104). -/
theorem decode_family8_x_y_n (cfg : Config) (x y n : Nibble) :
    decode cfg (0x8#4 ++ x ++ y ++ n) =
      if n = 0x0#4 then .ldReg x y
      else if n = 0x1#4 then .orReg x y
      else if n = 0x2#4 then .andReg x y
      else if n = 0x3#4 then .xorReg x y
      else if n = 0x4#4 then .addReg x y
      else if n = 0x5#4 then .sub x y
      else if n = 0x6#4 then .shr x y
      else if n = 0x7#4 then .subn x y
      else if n = cfg.shlSubop.nibble then .shl x y
      else .unsupported8 x y n := by
  have hfamily : decode cfg (0x8#4 ++ x ++ y ++ n) =
      decodeFamily8 cfg (0x8#4 ++ x ++ y ++ n) := by
    rw [decode, fieldF_x_y_n]
    rfl
  rw [hfamily, decodeFamily8, fieldX_x_y_n, fieldY_x_y_n, fieldN_x_y_n]

section
variable (cfg : Config) (x y : Nibble)

theorem decode_8xy0 : decode cfg (0x8#4 ++ x ++ y ++ 0x0#4) = .ldReg x y :=
  decode_family8_x_y_n cfg x y 0x0#4

theorem decode_8xy1 : decode cfg (0x8#4 ++ x ++ y ++ 0x1#4) = .orReg x y :=
  decode_family8_x_y_n cfg x y 0x1#4

theorem decode_8xy2 : decode cfg (0x8#4 ++ x ++ y ++ 0x2#4) = .andReg x y :=
  decode_family8_x_y_n cfg x y 0x2#4

theorem decode_8xy3 : decode cfg (0x8#4 ++ x ++ y ++ 0x3#4) = .xorReg x y :=
  decode_family8_x_y_n cfg x y 0x3#4

theorem decode_8xy4 : decode cfg (0x8#4 ++ x ++ y ++ 0x4#4) = .addReg x y :=
  decode_family8_x_y_n cfg x y 0x4#4

theorem decode_8xy5 : decode cfg (0x8#4 ++ x ++ y ++ 0x5#4) = .sub x y :=
  decode_family8_x_y_n cfg x y 0x5#4

theorem decode_8xy6 : decode cfg (0x8#4 ++ x ++ y ++ 0x6#4) = .shr x y :=
  decode_family8_x_y_n cfg x y 0x6#4

theorem decode_8xy7 : decode cfg (0x8#4 ++ x ++ y ++ 0x7#4) = .subn x y :=
  decode_family8_x_y_n cfg x y 0x7#4

end

end Sys2Proof

namespace Sys2Proof.Machine

/-! ### The meanings -/

section
variable (x y : Nibble) (s : State)

theorem exec_ldReg : exec (.ldReg x y) s = complete (s.advance.setV x (s.getV y)) := rfl

theorem exec_orReg :
    exec (.orReg x y) s = complete (s.advance.setV x (s.getV x ||| s.getV y)) := rfl

theorem exec_andReg :
    exec (.andReg x y) s = complete (s.advance.setV x (s.getV x &&& s.getV y)) := rfl

theorem exec_xorReg :
    exec (.xorReg x y) s = complete (s.advance.setV x (s.getV x ^^^ s.getV y)) := rfl

theorem exec_addReg : exec (.addReg x y) s =
    complete (s.advance.flagThenResult x y carryFlag fun a b => a + b) := rfl

theorem exec_sub : exec (.sub x y) s =
    complete (s.advance.flagThenResult x y borrowFlag fun a b => a - b) := rfl

theorem exec_shr : exec (.shr x y) s =
    complete (s.advance.flagThenResult x x (fun a _ => lowBitFlag a) fun a _ => a >>> 1) := rfl

theorem exec_subn : exec (.subn x y) s =
    complete (s.advance.flagThenResult x y (fun a b => borrowFlag b a) fun a b => b - a) := rfl

end

/-! ### Flags and results as numbers -/

theorem flagOf_toNat (c : Bool) : (flagOf c).toNat = if c = true then 1 else 0 := by
  cases c <;> rfl

theorem carryFlag_toNat (a b : Byte) :
    (carryFlag a b).toNat = if a.toNat + b.toNat > 255 then 1 else 0 := by
  simp only [carryFlag, flagOf_toNat, decide_eq_true_eq]

theorem borrowFlag_toNat (minuend subtrahend : Byte) :
    (borrowFlag minuend subtrahend).toNat =
      if subtrahend.toNat > minuend.toNat then 1 else 0 := by
  simp only [borrowFlag, flagOf_toNat, decide_eq_true_eq]

theorem lowBitFlag_toNat (a : Byte) : (lowBitFlag a).toNat = a.toNat % 2 := by
  rw [lowBitFlag, BitVec.toNat_and]
  exact Nat.and_one_is_mod a.toNat

/-- The wrapped difference of bytes, with the minuend first as rules R226 and R228 write it. -/
theorem byte_sub_toNat (a b : Byte) : (a - b).toNat = (a.toNat + 256 - b.toNat) % 256 := by
  have hb : b.toNat < 256 := b.isLt
  rw [BitVec.toNat_sub]
  omega

theorem byte_shiftRight_one_toNat (a : Byte) : (a >>> 1).toNat = a.toNat / 2 := by
  rw [BitVec.toNat_ushiftRight, Nat.shiftRight_one]

/-! ### The two statements of a flag-writing row -/

/-- The operand of the register statement is the one the claims name as a number (rule R220). -/
theorem operandByte_toNat (s : State) (flag : Byte) (r : Nibble) :
    (operandByte s flag r).toNat = operandAfterFlag s flag.toNat r := by
  rw [operandByte, operandAfterFlag]
  cases s.cfg.operandOrder with
  | sequential => exact apply_ite BitVec.toNat ..
  | snapshot => rfl

/-- The advance of pc is no part of what an operand reads. -/
@[simp] theorem operandByte_advance (s : State) (flag : Byte) (r : Nibble) :
    operandByte s.advance flag r = operandByte s flag r := rfl

/-- A flag-writing row keeps every register but VF and V[X]. -/
theorem KeepsRegsBut.advance_flagThenResult (s : State) (x y : Nibble)
    (flag result : Byte → Byte → Byte) :
    KeepsRegsBut [regVF, x] s (s.advance.flagThenResult x y flag result) := by
  intro k hk
  obtain ⟨hvf, hx⟩ : k ≠ regVF ∧ k ≠ x := by simpa using hk
  rw [State.getV_flagThenResult, if_neg hx, if_neg hvf, State.getV_advance]

/-- A flag-writing row keeps everything but pc, VF and V[X], and completes with Ok. -/
theorem KeepsAllButPcAnd.of_complete_flagThenResult {s t : State} {x y : Nibble}
    {flag result : Byte → Byte → Byte}
    (h : complete (s.advance.flagThenResult x y flag result) = .next t) :
    KeepsAllButPcAnd [regVF, x] s t := by
  obtain rfl := complete_eq_next.1 h
  exact ⟨KeepsRegsBut.advance_flagThenResult s x y flag result, State.flagThenResult_index ..,
    ⟨State.flagThenResult_sp .., State.flagThenResult_stack ..⟩, State.flagThenResult_display ..,
    KeepsMemory.of_mem_eq (State.flagThenResult_mem ..),
    ⟨State.flagThenResult_cfg .., State.flagThenResult_dt .., State.flagThenResult_st ..,
      State.flagThenResult_keypad .., State.flagThenResult_rs ..⟩,
    ⟨rfl, State.flagThenResult_fl .., rfl⟩⟩

/-- Rule R220 for a whole step, in numbers: if the flag's number is f and the result's is `value` of
the operands' numbers, the step answers a next state with `value` of the operands as the order reads
them in V[X], f in VF unless X is F, pc 2 further and the rest as before. -/
theorem exists_next_of_flagThenResult {i : Instr} {s : State} {x y : Nibble}
    {flag result : Byte → Byte → Byte} {f : Nat} {value : Nat → Nat → Nat}
    (hexec : exec i s = complete (s.advance.flagThenResult x y flag result))
    (hflag : (flag (s.getV x) (s.getV y)).toNat = f)
    (hresult : ∀ a b, (result a b).toNat = value a.toNat b.toNat) :
    ∃ t, exec i s = .next t ∧
      ((t.getV x).toNat = value (operandAfterFlag s f x) (operandAfterFlag s f y) ∧
        (x ≠ regVF → (t.getV regVF).toNat = f)) ∧
      t.pc = s.pc + 2#16 ∧ KeepsAllButPcAnd [regVF, x] s t := by
  have hnext := complete_eq_next (s := s.advance.flagThenResult x y flag result).2 rfl
  have hregs := fun k => State.getV_flagThenResult s.advance x y k flag result
  simp only [State.getV_advance, operandByte_advance] at hregs
  refine ⟨_, hexec.trans hnext, ⟨?_, fun hx => ?_⟩, State.flagThenResult_pc ..,
    KeepsAllButPcAnd.of_complete_flagThenResult hnext⟩
  · calc ((s.advance.flagThenResult x y flag result).getV x).toNat
      _ = (result (operandByte s (flag (s.getV x) (s.getV y)) x)
            (operandByte s (flag (s.getV x) (s.getV y)) y)).toNat := by rw [hregs, if_pos rfl]
      _ = value (operandAfterFlag s f x) (operandAfterFlag s f y) := by
        rw [hresult, operandByte_toNat, operandByte_toNat, hflag]
  · calc ((s.advance.flagThenResult x y flag result).getV regVF).toNat
      _ = (flag (s.getV x) (s.getV y)).toNat := by rw [hregs, if_neg hx.symm, if_pos rfl]
      _ = f := hflag

/-! ### The obligations -/

/-- Settles O25: ADD_reg is the flag-writing law at the carry and the byte sum. -/
theorem addRegSetsCarryThenSum : Obligations.AddRegSetsCarryThenSum := by
  intro x y s
  exact ⟨decode_8xy4 s.cfg x y, exists_next_of_flagThenResult (exec_addReg x y s)
    (value := fun a b => (a + b) % 256) (carryFlag_toNat ..) BitVec.toNat_add⟩

/-- Settles O26: SUB is the flag-writing law at the borrow of V[X] − V[Y] and that difference. -/
theorem subSetsBorrowThenDifference : Obligations.SubSetsBorrowThenDifference := by
  intro x y s
  exact ⟨decode_8xy5 s.cfg x y, exists_next_of_flagThenResult (exec_sub x y s)
    (value := fun a b => (a + 256 - b) % 256) (borrowFlag_toNat ..) byte_sub_toNat⟩

/-- Settles O27: SHR is the flag-writing law at the low bit and the half, both of V[X] alone. -/
theorem shrSetsLowBitThenHalves : Obligations.ShrSetsLowBitThenHalves := by
  intro x y s
  exact ⟨decode_8xy6 s.cfg x y, exists_next_of_flagThenResult (exec_shr x y s)
    (value := fun a _ => a / 2) (lowBitFlag_toNat _) fun a _ => byte_shiftRight_one_toNat a⟩

/-- Settles O28: SUBN is SUB's law with the operands of flag and result exchanged. -/
theorem subnSetsBorrowThenDifference : Obligations.SubnSetsBorrowThenDifference := by
  intro x y s
  exact ⟨decode_8xy7 s.cfg x y, exists_next_of_flagThenResult (exec_subn x y s)
    (value := fun a b => (b + 256 - a) % 256) (borrowFlag_toNat ..) fun a b => byte_sub_toNat b a⟩

/-- Settles O24: each row is the register-write law at its own result, and the bits of the byte
operations are the Boolean ones of the operands' bits. -/
theorem movesAndLogicWriteOnlyTheirResult : Obligations.MovesAndLogicWriteOnlyTheirResult := by
  intro x y s
  obtain ⟨t, hor, horV, horRest⟩ := exists_next_of_setV (exec_orReg x y s)
  obtain ⟨u, hand, handV, handRest⟩ := exists_next_of_setV (exec_andReg x y s)
  obtain ⟨w, hxor, hxorV, hxorRest⟩ := exists_next_of_setV (exec_xorReg x y s)
  exact ⟨⟨decode_8xy0 s.cfg x y, exists_next_of_setV (exec_ldReg x y s)⟩,
    ⟨decode_8xy1 s.cfg x y, t, hor, fun b => by rw [horV, BitVec.getLsbD_or], horRest⟩,
    ⟨decode_8xy2 s.cfg x y, u, hand, fun b => by rw [handV, BitVec.getLsbD_and], handRest⟩,
    ⟨decode_8xy3 s.cfg x y, w, hxor, fun b => by rw [hxorV, BitVec.getLsbD_xor], hxorRest⟩⟩

end Sys2Proof.Machine

/-!
The encoding as a bijection (spec/30_encoding.md rules R101 to R107): the decode of the remaining
families, decode after encode, encode after decode, the unsupported opcodes, and the fields that do
not matter.
-/

namespace Sys2Proof

/-! ### The remaining families -/

section
variable (cfg : Config) (x y n : Nibble) (nnn : Addr12)

/-- NN of an opcode written with NNN is NNN's low byte. -/
theorem fieldNN_nnn (f : Nibble) : fieldNN (f ++ nnn) = nnn.extractLsb' 0 8 := by
  apply BitVec.eq_of_toNat_eq
  rw [fieldNN_toNat, toNat_append_nnn, BitVec.extractLsb'_toNat, Nat.shiftRight_zero]
  omega

/-- Family 0x0 outside CLS and RET (rule R144). -/
theorem decode_family0_nnn (h : family0Selects (nnn.extractLsb' 0 8) = false) :
    decode cfg (0x0#4 ++ nnn) = .unsupported0 nnn := by
  simp only [family0Selects, Bool.or_eq_false_iff, beq_eq_false_iff_ne] at h
  rw [decode, fieldF_nnn, if_pos rfl, decodeFamily0, fieldNN_nnn, fieldNNN_nnn, if_neg h.1,
    if_neg h.2]

/-- Family 0x2 is CALL alone, under every configuration (rule R104). -/
theorem decode_family2_nnn : decode cfg (0x2#4 ++ nnn) = .call nnn := by
  rw [decode, fieldF_nnn, fieldNNN_nnn]
  rfl

/-- Family 0x5 is SE_reg alone, under every configuration (rule R104). -/
theorem decode_family5_x_y_n : decode cfg (0x5#4 ++ x ++ y ++ n) = .seReg x y n := by
  rw [decode, fieldF_x_y_n, fieldX_x_y_n, fieldY_x_y_n, fieldN_x_y_n]
  rfl

/-- Family 0x8 at SHL_SUBOP is SHL, under both its values (rule R104, decision D5). -/
theorem decode_8xy_shlSubop :
    decode cfg (0x8#4 ++ x ++ y ++ cfg.shlSubop.nibble) = .shl x y := by
  rw [decode_family8_x_y_n]
  cases cfg.shlSubop <;> rfl

/-- Family 0x8 outside the sub-opcodes that select an instruction (rule R240). -/
theorem decode_family8_unsupported (h : aluSubop cfg n = false) :
    decode cfg (0x8#4 ++ x ++ y ++ n) = .unsupported8 x y n := by
  simp only [aluSubop, Bool.or_eq_false_iff, decide_eq_false_iff_not, beq_eq_false_iff_ne] at h
  obtain ⟨hlow, hshl⟩ := h
  have hne : ∀ k : Nibble, k.toNat ≤ 7 → n ≠ k := fun k hk e => hlow (e ▸ hk)
  rw [decode_family8_x_y_n, if_neg (hne _ (by decide)), if_neg (hne _ (by decide)),
    if_neg (hne _ (by decide)), if_neg (hne _ (by decide)), if_neg (hne _ (by decide)),
    if_neg (hne _ (by decide)), if_neg (hne _ (by decide)), if_neg (hne _ (by decide)),
    if_neg hshl]

/-- Family 0x9 is SNE_reg alone, under every configuration (rule R104). -/
theorem decode_family9_x_y_n : decode cfg (0x9#4 ++ x ++ y ++ n) = .sneReg x y n := by
  rw [decode, fieldF_x_y_n, fieldX_x_y_n, fieldY_x_y_n, fieldN_x_y_n]
  rfl

/-- Family 0xB is JP_V0 alone, under every configuration (rule R104). -/
theorem decode_familyB_nnn : decode cfg (0xB#4 ++ nnn) = .jpV0 nnn := by
  rw [decode, fieldF_nnn, fieldNNN_nnn]
  rfl

/-- Family 0xC is unsupported, under every configuration (rule R290). -/
theorem decode_familyC_nnn : decode cfg (0xC#4 ++ nnn) = .unsupportedC nnn := by
  rw [decode, fieldF_nnn, fieldNNN_nnn]
  rfl

/-- Family 0xD is DRW alone, under every configuration (rule R104). -/
theorem decode_familyD_x_y_n : decode cfg (0xD#4 ++ x ++ y ++ n) = .drw x y n := by
  rw [decode, fieldF_x_y_n, fieldX_x_y_n, fieldY_x_y_n, fieldN_x_y_n]
  rfl

/-- Family 0xE is unsupported, under every configuration (rule R291). -/
theorem decode_familyE_nnn : decode cfg (0xE#4 ++ nnn) = .unsupportedE nnn := by
  rw [decode, fieldF_nnn, fieldNNN_nnn]
  rfl

/-- Family 0xF is unsupported, under every configuration (rule R292). -/
theorem decode_familyF_nnn : decode cfg (0xF#4 ++ nnn) = .unsupportedF nnn := by
  rw [decode, fieldF_nnn, fieldNNN_nnn]
  rfl

/-- Family 0x0 at 0xE0 is CLS, whatever X (rules R104, R107). -/
theorem decode_0xE0 : decode cfg (0x0#4 ++ x ++ 0xE0#8) = .cls x :=
  decode_family0_x_nn cfg x 0xE0#8

/-- Family 0x0 at 0xEE is RET, whatever X (rules R104, R107). -/
theorem decode_0xEE : decode cfg (0x0#4 ++ x ++ 0xEE#8) = .ret x :=
  decode_family0_x_nn cfg x 0xEE#8

end

/-! ### Decode after encode -/

/-- Settles O3: each row's opcode is a word of its family, and that family's decode law gives the
instruction back; only the unsupported rows of families 0x0 and 0x8 need well-formedness. -/
theorem decodeOfEncodeIsTheInstruction : Obligations.DecodeOfEncodeIsTheInstruction := by
  intro cfg i hwf
  cases i with
  | cls x => exact decode_0xE0 cfg x
  | ret x => exact decode_0xEE cfg x
  | jp nnn => exact decode_family1_nnn cfg nnn
  | call nnn => exact decode_family2_nnn cfg nnn
  | seImm x nn => exact decode_family3_x_nn cfg x nn
  | sneImm x nn => exact decode_family4_x_nn cfg x nn
  | seReg x y n => exact decode_family5_x_y_n cfg x y n
  | ldImm x nn => exact decode_family6_x_nn cfg x nn
  | addImm x nn => exact decode_family7_x_nn cfg x nn
  | ldReg x y => exact decode_8xy0 cfg x y
  | orReg x y => exact decode_8xy1 cfg x y
  | andReg x y => exact decode_8xy2 cfg x y
  | xorReg x y => exact decode_8xy3 cfg x y
  | addReg x y => exact decode_8xy4 cfg x y
  | sub x y => exact decode_8xy5 cfg x y
  | shr x y => exact decode_8xy6 cfg x y
  | subn x y => exact decode_8xy7 cfg x y
  | shl x y => exact decode_8xy_shlSubop cfg x y
  | sneReg x y n => exact decode_family9_x_y_n cfg x y n
  | ldI nnn => exact decode_familyA_nnn cfg nnn
  | jpV0 nnn => exact decode_familyB_nnn cfg nnn
  | drw x y n => exact decode_familyD_x_y_n cfg x y n
  | unsupported0 nnn => exact decode_family0_nnn cfg nnn (by simpa [Instr.wf] using hwf)
  | unsupported8 x y n => exact decode_family8_unsupported cfg x y n (by simpa [Instr.wf] using hwf)
  | unsupportedC nnn => exact decode_familyC_nnn cfg nnn
  | unsupportedE nnn => exact decode_familyE_nnn cfg nnn
  | unsupportedF nnn => exact decode_familyF_nnn cfg nnn

/-! ### Encode after decode -/

section
variable {w : Word}

theorem append_nnn_of_family {f : Nibble} (hf : (fieldF w).toNat = f.toNat) :
    f ++ fieldNNN w = w :=
  BitVec.eq_of_toNat_eq hf ▸ append_fields_nnn w

theorem append_x_nn_of_family {f : Nibble} {nn : Byte} (hf : (fieldF w).toNat = f.toNat)
    (hnn : fieldNN w = nn) : f ++ fieldX w ++ nn = w :=
  BitVec.eq_of_toNat_eq hf ▸ hnn ▸ append_fields_x_nn w

theorem append_x_y_n_of_family {f n : Nibble} (hf : (fieldF w).toNat = f.toNat)
    (hn : (fieldN w).toNat = n.toNat) : f ++ fieldX w ++ fieldY w ++ n = w :=
  BitVec.eq_of_toNat_eq hf ▸ BitVec.eq_of_toNat_eq hn ▸ append_fields_x_y_n w

/-- Every word of family 0x0 is the opcode of a well-formed instruction. -/
theorem exists_encode_family0 (cfg : Config) (hf : (fieldF w).toNat = 0x0) :
    ∃ i : Instr, i.wf cfg = true ∧ encode cfg i = w := by
  by_cases hcls : fieldNN w = 0xE0#8
  · exact ⟨.cls (fieldX w), rfl, append_x_nn_of_family hf hcls⟩
  by_cases hret : fieldNN w = 0xEE#8
  · exact ⟨.ret (fieldX w), rfl, append_x_nn_of_family hf hret⟩
  have hlow : (fieldNNN w).extractLsb' 0 8 = fieldNN w := by
    rw [← fieldNN_nnn _ (fieldF w), append_fields_nnn]
  exact ⟨.unsupported0 (fieldNNN w), by simp [Instr.wf, family0Selects, hlow, hcls, hret],
    append_nnn_of_family hf⟩

/-- Every word of family 0x8 is the opcode of a well-formed instruction. -/
theorem exists_encode_family8 (cfg : Config) (hf : (fieldF w).toNat = 0x8) :
    ∃ i : Instr, i.wf cfg = true ∧ encode cfg i = w := by
  match hn : (fieldN w).toNat with
  | 0x0 => exact ⟨.ldReg (fieldX w) (fieldY w), rfl, append_x_y_n_of_family hf hn⟩
  | 0x1 => exact ⟨.orReg (fieldX w) (fieldY w), rfl, append_x_y_n_of_family hf hn⟩
  | 0x2 => exact ⟨.andReg (fieldX w) (fieldY w), rfl, append_x_y_n_of_family hf hn⟩
  | 0x3 => exact ⟨.xorReg (fieldX w) (fieldY w), rfl, append_x_y_n_of_family hf hn⟩
  | 0x4 => exact ⟨.addReg (fieldX w) (fieldY w), rfl, append_x_y_n_of_family hf hn⟩
  | 0x5 => exact ⟨.sub (fieldX w) (fieldY w), rfl, append_x_y_n_of_family hf hn⟩
  | 0x6 => exact ⟨.shr (fieldX w) (fieldY w), rfl, append_x_y_n_of_family hf hn⟩
  | 0x7 => exact ⟨.subn (fieldX w) (fieldY w), rfl, append_x_y_n_of_family hf hn⟩
  | k + 8 =>
    by_cases hshl : fieldN w = cfg.shlSubop.nibble
    · exact ⟨.shl (fieldX w) (fieldY w), rfl,
        append_x_y_n_of_family hf (congrArg BitVec.toNat hshl)⟩
    · exact ⟨.unsupported8 (fieldX w) (fieldY w) (fieldN w),
        by simp [Instr.wf, aluSubop, hn, hshl], append_x_y_n_of_family hf rfl⟩

/-- Every word is the opcode of a well-formed instruction: its family and its fields name all of
its bits. -/
theorem exists_encode (cfg : Config) (w : Word) :
    ∃ i : Instr, i.wf cfg = true ∧ encode cfg i = w := by
  match hf : (fieldF w).toNat with
  | 0x0 => exact exists_encode_family0 cfg hf
  | 0x1 => exact ⟨.jp (fieldNNN w), rfl, append_nnn_of_family hf⟩
  | 0x2 => exact ⟨.call (fieldNNN w), rfl, append_nnn_of_family hf⟩
  | 0x3 => exact ⟨.seImm (fieldX w) (fieldNN w), rfl, append_x_nn_of_family hf rfl⟩
  | 0x4 => exact ⟨.sneImm (fieldX w) (fieldNN w), rfl, append_x_nn_of_family hf rfl⟩
  | 0x5 => exact ⟨.seReg (fieldX w) (fieldY w) (fieldN w), rfl, append_x_y_n_of_family hf rfl⟩
  | 0x6 => exact ⟨.ldImm (fieldX w) (fieldNN w), rfl, append_x_nn_of_family hf rfl⟩
  | 0x7 => exact ⟨.addImm (fieldX w) (fieldNN w), rfl, append_x_nn_of_family hf rfl⟩
  | 0x8 => exact exists_encode_family8 cfg hf
  | 0x9 => exact ⟨.sneReg (fieldX w) (fieldY w) (fieldN w), rfl, append_x_y_n_of_family hf rfl⟩
  | 0xA => exact ⟨.ldI (fieldNNN w), rfl, append_nnn_of_family hf⟩
  | 0xB => exact ⟨.jpV0 (fieldNNN w), rfl, append_nnn_of_family hf⟩
  | 0xC => exact ⟨.unsupportedC (fieldNNN w), rfl, append_nnn_of_family hf⟩
  | 0xD => exact ⟨.drw (fieldX w) (fieldY w) (fieldN w), rfl, append_x_y_n_of_family hf rfl⟩
  | 0xE => exact ⟨.unsupportedE (fieldNNN w), rfl, append_nnn_of_family hf⟩
  | 0xF => exact ⟨.unsupportedF (fieldNNN w), rfl, append_nnn_of_family hf⟩
  | k + 16 => exact absurd (fieldF w).isLt (by omega)

end

/-- Settles O4: the word is the opcode of some well-formed instruction, and decoding gives that one
back. -/
theorem encodeOfDecodeIsTheWord : Obligations.EncodeOfDecodeIsTheWord := by
  intro cfg w
  obtain ⟨i, hwf, rfl⟩ := exists_encode cfg w
  rw [decodeOfEncodeIsTheInstruction cfg i hwf]
  exact ⟨hwf, rfl⟩

/-! ### The unsupported opcodes -/

/-- The top four bits of an opcode are its instruction's family in the opcode map (rule R105). -/
theorem fieldF_encode (cfg : Config) (i : Instr) : fieldF (encode cfg i) = i.family := by
  cases i <;> simp [encode, Instr.family]

/-- The unsupported rows by family: the three whole families and, in 0x0 and 0x8, the rows that are
well formed only where no other row of the family stands. -/
theorem isUnsupported_iff {cfg : Config} {i : Instr} (hwf : i.wf cfg = true) :
    i.isUnsupported = true ↔
      (i.family = 0xC#4 ∨ i.family = 0xE#4 ∨ i.family = 0xF#4) ∨
      (i.family = 0x0#4 ∧ family0Selects (fieldNN (encode cfg i)) = false) ∨
      (i.family = 0x8#4 ∧ aluSubop cfg (fieldN (encode cfg i)) = false) := by
  cases i
  case unsupported0 nnn =>
    simpa [Instr.wf, Instr.isUnsupported, Instr.family, encode, fieldNN_nnn] using hwf
  case unsupported8 x y n => simpa [Instr.wf, Instr.isUnsupported, Instr.family, encode] using hwf
  all_goals simp [Instr.isUnsupported, Instr.family, encode, family0Selects, aluSubop]

/-- Settles O5: the rows by family, with the families and the selecting fields of the opcode read as
numbers. -/
theorem unsupportedOpcodesAreExactlyThese : Obligations.UnsupportedOpcodesAreExactlyThese := by
  intro cfg w
  obtain ⟨i, hwf, rfl⟩ := exists_encode cfg w
  rw [decodeOfEncodeIsTheInstruction cfg i hwf, isUnsupported_iff hwf, ← fieldF_encode cfg i]
  simp only [family0Selects, aluSubop, Bool.or_eq_false_iff, beq_eq_false_iff_ne, ne_eq,
    decide_eq_false_iff_not, Nat.not_le, fieldF_eq_iff, fieldNN_eq_iff, fieldN_eq_iff, fieldN_toNat]
  rfl

/-- Settles O1: the conditions of the dispatch table, evaluated on each word. -/
theorem wordsOfEachFamilyDecode : Obligations.WordsOfEachFamilyDecode := by
  unfold Obligations.WordsOfEachFamilyDecode
  decide

/-! ### Fields that do not matter -/

/-- Settles O6: the two opcodes decode to the same row with different ignored fields, which exec
does not pass on. -/
theorem ignoredFieldsChangeNothing : Obligations.IgnoredFieldsChangeNothing := by
  intro s x x' y y' n n'
  refine ⟨?_, ?_, ?_, ?_, ?_, ?_⟩
  · rw [decode_0xE0, decode_0xE0]; rfl
  · rw [decode_0xEE, decode_0xEE]; rfl
  · rw [decode_family5_x_y_n, decode_family5_x_y_n]; rfl
  · rw [decode_family9_x_y_n, decode_family9_x_y_n]; rfl
  · rw [decode_8xy6, decode_8xy6]; rfl
  · rw [decode_8xy_shlSubop, decode_8xy_shlSubop]; rfl

end Sys2Proof

/-!
The remaining meanings, each said once: RET, CALL, JP_V0, the register skips, SHL, DRW and the
unsupported rows (spec/40_family0_system.md to spec/46_unsupported.md), with what they settle.
-/

namespace Sys2Proof.Machine

/-! ### Taking a fault -/

/-- An outcome that raises f is the next state with f taken (rule R316). -/
theorem exists_next_of_raise {o : Host.Outcome State Fault Refusal} {f : Fault} {s : State}
    (h : o = raise f s) : ∃ t, o = .next t ∧ FaultTaken f s t := ⟨_, h, rfl⟩

/-! ### RET and CALL -/

section
variable {s : State}

theorem exec_ret_of_empty (x : Nibble) (h : s.sp.val = 0) :
    exec (.ret x) s = raise (.stackUnderflow s.pc) s := by
  rw [exec, execRet, State.pop_of_empty h]

theorem exec_ret_of_pos (x : Nibble) (h : 0 < s.sp.val) :
    exec (.ret x) s = complete { s with
      pc := s.stack[s.sp.val - 1]'(by have := s.sp.isLt; omega)
      sp := ⟨s.sp.val - 1, by have := s.sp.isLt; omega⟩ } := by
  rw [exec, execRet, State.pop_of_pos h]

theorem exec_call_of_full (nnn : Addr12) (h : s.sp.val = stackDepth) :
    exec (.call nnn) s = raise (.stackOverflow s.pc) s := by
  rw [exec, execCall, State.push_of_full (s := s.advance) _ h]

theorem exec_call_of_lt (nnn : Addr12) (h : s.sp.val < stackDepth) :
    exec (.call nnn) s = complete { s with
      pc := absoluteAddress nnn
      stack := s.stack.set s.sp.val (s.pc + 2#16) h
      sp := ⟨s.sp.val + 1, by omega⟩ } := by
  rw [exec, execCall, State.push_of_lt (s := s.advance) _ h]
  rfl

/-- The depth is 0 to 12 (rule R38): below full, or full. -/
theorem State.sp_lt_or_full (s : State) : s.sp.val < stackDepth ∨ s.sp.val = stackDepth :=
  Nat.lt_or_eq_of_le (Nat.le_of_lt_succ s.sp.isLt)

end

/-- Settles O12: the two meanings of RET, by whether the stack is empty. -/
theorem retPopsOrUnderflows : Obligations.RetPopsOrUnderflows := by
  intro x s
  refine ⟨decode_0xEE s.cfg x, fun h => ?_, fun h => exists_next_of_raise (exec_ret_of_empty x h)⟩
  exact ⟨_, (exec_ret_of_pos x h).trans (complete_eq_next.2 rfl), rfl, Nat.sub_add_cancel h, rfl,
    KeepsRegsBut.of_v_eq rfl [], rfl, rfl, KeepsMemory.of_mem_eq rfl, ⟨rfl, rfl, rfl, rfl, rfl⟩,
    ⟨rfl, rfl, rfl⟩⟩

/-- Settles O14: the two meanings of CALL, by whether the stack is full. -/
theorem callPushesOrOverflows : Obligations.CallPushesOrOverflows := by
  intro nnn s
  refine ⟨decode_family2_nnn s.cfg nnn, fun h => ?_,
    fun h => exists_next_of_raise (exec_call_of_full nnn h)⟩
  have hentries : ∀ k (hk : k < stackDepth), (s.stack.set s.sp.val (s.pc + 2#16) h)[k] =
      if k = s.sp.val then s.pc + 2#16 else s.stack[k] := by
    intro k hk
    simp only [Vector.getElem_set, eq_comm]
  exact ⟨_, (exec_call_of_lt nnn h).trans (complete_eq_next.2 rfl), absoluteAddress_toNat nnn, rfl,
    hentries, KeepsRegsBut.of_v_eq rfl [], rfl, rfl, KeepsMemory.of_mem_eq rfl,
    ⟨rfl, rfl, rfl, rfl, rfl⟩, ⟨rfl, rfl, rfl⟩⟩

/-- Settles O16: the RET pops the one entry the CALL pushed, and neither touches anything else. -/
theorem retUndoesCall : Obligations.RetUndoesCall := by
  intro nnn x s h
  refine ⟨_, _, (exec_call_of_lt nnn h).trans (complete_eq_next.2 rfl),
    (exec_ret_of_pos x (Nat.succ_pos s.sp.val)).trans (complete_eq_next.2 rfl), ?_, rfl, ?_,
    KeepsRegsBut.of_v_eq rfl [], rfl, rfl, KeepsMemory.of_mem_eq rfl, ⟨rfl, rfl, rfl, rfl, rfl⟩,
    ⟨rfl, rfl, rfl⟩⟩
  · exact Vector.getElem_set_self h
  · intro k hk hne
    exact Vector.getElem_set_ne h hk hne.symm

/-- While the stack has room for them, CALLs one after another succeed, each one deeper. -/
theorem execAll_calls (targets : List Addr12) {s : State}
    (h : s.sp.val + targets.length ≤ stackDepth) :
    ∃ t, execAll (targets.map .call) s = .next t ∧
      t.sp.val = s.sp.val + targets.length ∧ t.fl = s.fl := by
  induction targets generalizing s with
  | nil => exact ⟨s, rfl, rfl, rfl⟩
  | cons nnn targets ih =>
    rw [List.length_cons] at h ⊢
    have hcall := (exec_call_of_lt nnn (s := s) (by omega)).trans (complete_eq_next.2 rfl)
    obtain ⟨t, ht, hsp, hfl⟩ := ih (s := { s with
      pc := absoluteAddress nnn
      stack := s.stack.set s.sp.val (s.pc + 2#16) (by omega)
      sp := ⟨s.sp.val + 1, by omega⟩
      reply := .ok
      stepped := true }) (by simp only; omega)
    refine ⟨t, ?_, by simp only at hsp; omega, hfl⟩
    rw [List.map_cons, execAll, hcall]
    exact ht

/-- Settles O17: the nested CALLs fill the stack, and the one on the full stack overflows. -/
theorem twelveCallsSucceedAndTheNextOverflows :
    Obligations.TwelveCallsSucceedAndTheNextOverflows := by
  intro targets s hempty
  have hcalls : targets.length ≤ 12 → ∃ t, execAll (targets.map .call) s = .next t ∧
      t.sp.val = targets.length ∧ t.fl = s.fl := by
    intro hlen
    obtain ⟨t, ht, hsp, hfl⟩ := execAll_calls targets (s := s) (by rwa [hempty, Nat.zero_add])
    exact ⟨t, ht, by rw [hsp, hempty, Nat.zero_add], hfl⟩
  refine ⟨hcalls, fun hlen nnn => ?_⟩
  obtain ⟨t, ht, hsp, -⟩ := hcalls hlen.le
  have hfull : t.sp.val = stackDepth := hsp.trans hlen
  obtain ⟨u, hu, hfault⟩ := exists_next_of_raise (exec_call_of_full nnn hfull)
  exact ⟨t, u, ht, hfull, hu, hfault⟩

/-! ### JP_V0 -/

theorem exec_jpV0 (nnn : Addr12) (s : State) :
    exec (.jpV0 nnn) s = complete { s with pc := offsetAddress (s.getV 0x0#4) nnn } := rfl

/-- A byte and a 12-bit address add up to less than 2^16: nothing is lost (rule R170). -/
theorem offsetAddress_toNat (b : Byte) (nnn : Addr12) :
    (offsetAddress b nnn).toNat = b.toNat + nnn.toNat := by
  have hb := b.isLt
  have hn := nnn.isLt
  simp only [offsetAddress, BitVec.truncate_eq_setWidth, BitVec.toNat_add, BitVec.toNat_setWidth]
  omega

/-- Settles O15: JP_V0 completes on the state with pc = V[0] + NNN, and writing pc alone keeps the
rest. -/
theorem jpV0AddsRegisterZero : Obligations.JpV0AddsRegisterZero := by
  intro nnn s
  have hnext := (exec_jpV0 nnn s).trans (complete_eq_next.2 rfl)
  exact ⟨decode_familyB_nnn s.cfg nnn, _, hnext, offsetAddress_toNat _ nnn,
    KeepsAllButPcAnd.of_complete_pc hnext⟩

/-! ### The register skips -/

theorem exec_seReg (x y n : Nibble) (s : State) :
    exec (.seReg x y n) s = complete (s.advance.skipIf (s.getV x == s.getV y)) := rfl

theorem exec_sneReg (x y n : Nibble) (s : State) :
    exec (.sneReg x y n) s = complete (s.advance.skipIf (s.getV x != s.getV y)) := rfl

/-- Settles O19: each register skip is the skip law at its own condition, the second the negation of
the first. -/
theorem registerSkipsSkipOnTheirCondition : Obligations.RegisterSkipsSkipOnTheirCondition := by
  intro x y n s
  obtain ⟨t, hse, hsePc, hseKeeps⟩ := exists_next_of_skip (exec_seReg x y n s)
  obtain ⟨u, hsne, hsnePc, hsneKeeps⟩ := exists_next_of_skip (exec_sneReg x y n s)
  simp only [beq_iff_eq] at hsePc
  simp only [bne_iff_ne, ite_not] at hsnePc
  exact ⟨⟨decode_family5_x_y_n s.cfg x y n, t, hse, hsePc, hseKeeps⟩,
    ⟨decode_family9_x_y_n s.cfg x y n, u, hsne, hsnePc, hsneKeeps⟩⟩

/-! ### Loads and adds in sequence -/

/-- Two steps that each keep everything but pc and the listed registers, one after the other. -/
theorem KeepsAllButPcAnd.trans {ws : List Nibble} {s t u : State}
    (hst : KeepsAllButPcAnd ws s t) (htu : KeepsAllButPcAnd ws t u) :
    KeepsAllButPcAnd ws s u := by
  obtain ⟨hregs, hindex, ⟨hsp, hstack⟩, hdisplay, ⟨hmem, hbytes⟩, ⟨hcfg, hdt, hst', hkeys, hrs⟩,
    -, hfl, -⟩ := hst
  obtain ⟨hregs', hindex', ⟨hsp', hstack'⟩, hdisplay', ⟨hmem', hbytes'⟩,
    ⟨hcfg', hdt', hst'', hkeys', hrs'⟩, hreply, hfl', hstepped⟩ := htu
  exact ⟨fun k hk => (hregs' k hk).trans (hregs k hk), hindex'.trans hindex,
    ⟨hsp'.trans hsp, hstack'.trans hstack⟩, hdisplay'.trans hdisplay,
    ⟨hmem'.trans hmem, fun a => (hbytes' a).trans (hbytes a)⟩,
    ⟨hcfg'.trans hcfg, hdt'.trans hdt, hst''.trans hst', hkeys'.trans hkeys, hrs'.trans hrs⟩,
    ⟨hreply, hfl'.trans hfl, hstepped⟩⟩

/-- Settles O22: the register-write law twice, the second sum taken on what the first wrote. -/
theorem loadThenAddSums : Obligations.LoadThenAddSums := by
  intro x nn nn2 s
  obtain ⟨t, hld, hldV, hldPc, hldKeeps⟩ := exists_next_of_setV (exec_ldImm x nn s)
  obtain ⟨u, hadd, haddV, haddPc, haddKeeps⟩ := exists_next_of_setV (exec_addImm x nn2 t)
  refine ⟨t, u, hld, hadd, ?_, ?_, hldKeeps.trans haddKeeps⟩
  · rw [haddV, hldV, BitVec.toNat_add]
  · rw [haddPc, hldPc, BitVec.add_assoc]
    rfl

/-! ### SHL -/

theorem exec_shl (x y : Nibble) (s : State) : exec (.shl x y) s =
    complete (s.advance.flagThenResult x x (fun a _ => highBitFlag a) fun a _ => a <<< 1) := rfl

theorem highBitFlag_toNat (a : Byte) : (highBitFlag a).toNat = a.toNat / 128 := by
  have ha := a.isLt
  rw [highBitFlag, BitVec.toNat_and, BitVec.toNat_ushiftRight, Nat.shiftRight_eq_div_pow]
  refine (Nat.and_one_is_mod _).trans ?_
  omega

theorem byte_shiftLeft_one_toNat (a : Byte) : (a <<< 1).toNat = 2 * a.toNat % 256 := by
  rw [BitVec.toNat_shiftLeft, Nat.shiftLeft_eq, Nat.mul_comm]

/-- Settles O29: SHL is the flag-writing law at the high bit and the double, both of V[X] alone. -/
theorem shlSetsHighBitThenDoubles : Obligations.ShlSetsHighBitThenDoubles := by
  intro x y s
  exact ⟨decode_8xy_shlSubop s.cfg x y, exists_next_of_flagThenResult (exec_shl x y s)
    (value := fun a _ => 2 * a % 256) (highBitFlag_toNat _) fun a _ => byte_shiftLeft_one_toNat a⟩

/-! ### The unsupported rows -/

section
variable (nnn : Addr12) (x y n : Nibble) (s : State)

theorem exec_unsupported0 :
    exec (.unsupported0 nnn) s = unsupportedStep (0x0#4 ++ nnn) s := rfl

theorem exec_unsupported8 :
    exec (.unsupported8 x y n) s = unsupportedStep (0x8#4 ++ x ++ y ++ n) s := rfl

theorem exec_unsupportedC :
    exec (.unsupportedC nnn) s = unsupportedStep (0xC#4 ++ nnn) s := rfl

theorem exec_unsupportedE :
    exec (.unsupportedE nnn) s = unsupportedStep (0xE#4 ++ nnn) s := rfl

theorem exec_unsupportedF :
    exec (.unsupportedF nnn) s = unsupportedStep (0xF#4 ++ nnn) s := rfl

end

/-- Rule R293 for a whole step. -/
theorem exists_next_of_unsupportedStep {i : Instr} {s : State} {w : Word}
    (hexec : exec i s = unsupportedStep w s) : ∃ t, exec i s = .next t ∧ OnlyAdvances w s t := by
  refine ⟨_, hexec.trans (unsupportedStep_eq_next.2 rfl), rfl, rfl, rfl, fun hmode => ?_,
    fun hmode => ?_, KeepsRegsBut.of_v_eq rfl [], rfl, ⟨rfl, rfl⟩, rfl, KeepsMemory.of_mem_eq rfl,
    ⟨rfl, rfl, rfl, rfl, rfl⟩⟩
  · simp only [hmode]
  · simp only [hmode]

/-- Settles O33: the five rows share one behaviour, each with its own opcode. -/
theorem unsupportedOpcodesOnlyAdvance : Obligations.UnsupportedOpcodesOnlyAdvance := by
  intro nnn x y n s
  exact ⟨exists_next_of_unsupportedStep (exec_unsupported0 nnn s),
    exists_next_of_unsupportedStep (exec_unsupported8 x y n s),
    exists_next_of_unsupportedStep (exec_unsupportedC nnn s),
    exists_next_of_unsupportedStep (exec_unsupportedE nnn s),
    exists_next_of_unsupportedStep (exec_unsupportedF nnn s)⟩

/-! ### DRW -/

/-- What DRW's drawing leaves: the display, and whether a lit pixel was hit (rules R261 to R265). -/
def State.drawn (s : State) (x y n : Nibble) : Display × Bool :=
  drawRows (spriteBytes s n.toNat) (originX s x) (originY s y) (s.display, false)

theorem exec_drw_of_out_of_range (x y : Nibble) {n : Nibble} {s : State} (hn : 0 < n.toNat)
    (h : memSize < s.index.toNat + n.toNat) :
    exec (.drw x y n) s =
      raise (.memoryOutOfRange (BitVec.ofNat 16 (max s.index.toNat memSize))) s := by
  rw [exec, execDrw, rangeFault_eq_some.2 ⟨⟨hn, h⟩, rfl⟩]

theorem exec_drw_of_in_range (x y : Nibble) {n : Nibble} {s : State}
    (h : n.toNat = 0 ∨ s.index.toNat + n.toNat ≤ memSize) :
    exec (.drw x y n) s = complete { s.advance.setV regVF (flagOf (s.drawn x y n).2) with
      display := (s.drawn x y n).1 } := by
  rw [exec, execDrw, rangeFault_eq_none.2 h]
  rfl

/-- Settles O31: the range check precedes every effect of the draw. -/
theorem drwPastMemoryFaults : Obligations.DrwPastMemoryFaults := by
  intro x y n s hn h
  exact exists_next_of_raise (exec_drw_of_out_of_range x y hn h)

theorem spriteBytes_getElem? (s : State) (n r : Nat) :
    (spriteBytes s n)[r]? = if r < n then some (s.mem.read (s.index.toNat + r)) else none := by
  rw [spriteBytes, List.getElem?_map]
  split
  · rw [List.getElem?_range ‹r < n›]
    rfl
  · rw [List.getElem?_eq_none (by simpa using ‹¬ r < n›)]
    rfl

/-- The bit that the drawing functions place is the claims' sprite bit (rules R263, R264). -/
theorem bitAt_spriteBytes (s : State) (n x0 y0 px py : Nat) :
    bitAt (spriteBytes s n) x0 y0 px py = spriteBit s n x0 y0 px py := by
  rw [bitAt, spriteBit, spriteBytes_getElem?]
  by_cases hx : x0 ≤ px
  · by_cases hy : y0 ≤ py
    · have hcol : px - x0 < 8 ↔ px < x0 + 8 := by omega
      have hrow : py - y0 < n ↔ py < y0 + n := by omega
      by_cases hn : py < y0 + n
      · rw [if_pos (hrow.2 hn), Option.elim_some, rowBits_getD]
        simp [hx, hy, hn, hcol]
      · simp [hrow, hn]
    · simp [hy]
  · simp [hx]

/-- The drawing xors the sprite bits into the display and reports exactly a collision. -/
theorem State.drawn_spec (s : State) (x y n : Nibble) :
    (∀ px py, px < dispW → py < dispH → (s.drawn x y n).1.pixel px py =
      (s.display.pixel px py ^^ spriteBit s n.toNat (originX s x) (originY s y) px py)) ∧
    ((s.drawn x y n).2 = true ↔ Collides s n.toNat (originX s x) (originY s y)) := by
  obtain ⟨hpixels, hhit⟩ := drawRows_spec (rows := spriteBytes s n.toNat) (x0 := originX s x)
    (y := originY s y) (d := s.display) (hit := false)
  simp only [bitAt_spriteBytes, Bool.false_eq_true, false_or] at hpixels hhit
  exact ⟨hpixels, hhit⟩

/-- Settles O30: the draw in range completes with the drawn display and the collision in VF. -/
theorem drwXorsTheClippedSprite : Obligations.DrwXorsTheClippedSprite := by
  intro x y n s h
  obtain ⟨hpixels, hhit⟩ := s.drawn_spec x y n
  have hvf : (s.advance.setV regVF (flagOf (s.drawn x y n).2)).getV regVF =
      flagOf (s.drawn x y n).2 := State.getV_setV_self ..
  refine ⟨decode_familyD_x_y_n s.cfg x y n, _,
    (exec_drw_of_in_range x y h).trans (complete_eq_next.2 rfl), ⟨hpixels, ?_, ?_⟩, rfl,
    KeepsRegsBut.advance_setV s regVF _, rfl, ⟨rfl, rfl⟩, KeepsMemory.of_mem_eq rfl,
    ⟨rfl, rfl, rfl, rfl, rfl⟩, ⟨rfl, rfl, rfl⟩⟩
  · intro hc
    exact hvf.trans (by rw [hhit.2 hc]; rfl)
  · intro hc
    exact hvf.trans (by rw [Bool.eq_false_iff.2 (mt hhit.1 hc)]; rfl)

/-- The sprite bits are read from memory at I: nothing else of the state matters to them. -/
theorem spriteBit_congr {s t : State} (hmem : t.mem = s.mem) (hindex : t.index = s.index) :
    spriteBit t = spriteBit s := by
  funext n x0 y0 x y
  rw [spriteBit, spriteBit, hmem, hindex]

/-- Settles O32: the second draw has the first one's origin and sprite, so it xors the same bits
again; the first meets no lit pixel, the second meets exactly the bits the first drew. -/
theorem drawingTwiceErases : Obligations.DrawingTwiceErases := by
  intro x y n s hx hy h hclear
  obtain ⟨-, t, ht, ⟨htPixels, -, htVF⟩, -, htRegs, htIndex, -, htMem, -⟩ :=
    drwXorsTheClippedSprite x y n s h
  obtain ⟨-, u, hu, ⟨huPixels, huHit, huMiss⟩, -⟩ :=
    drwXorsTheClippedSprite x y n t (by rwa [htIndex])
  have hsprite := spriteBit_congr htMem.1 htIndex
  have hbits : ∀ px py, px < dispW → py < dispH → t.display.pixel px py =
      spriteBit s n.toNat ((s.getV x).toNat % 64) ((s.getV y).toNat % 32) px py := by
    intro px py hpx hpy
    rw [htPixels px py hpx hpy, hclear px py hpx hpy, Bool.false_xor]
  have hxKept : t.getV x = s.getV x := htRegs x (by simpa using hx)
  have hyKept : t.getV y = s.getV y := htRegs y (by simpa using hy)
  have hcollides : Collides t n.toNat ((s.getV x).toNat % 64) ((s.getV y).toNat % 32) ↔
      ∃ px py, px < dispW ∧ py < dispH ∧
        spriteBit s n.toNat ((s.getV x).toNat % 64) ((s.getV y).toNat % 32) px py = true := by
    constructor
    · rintro ⟨px, py, hpx, hpy, hbit, -⟩
      exact ⟨px, py, hpx, hpy, hsprite ▸ hbit⟩
    · rintro ⟨px, py, hpx, hpy, hbit⟩
      exact ⟨px, py, hpx, hpy, hsprite ▸ hbit, (hbits px py hpx hpy).trans hbit⟩
  rw [hxKept, hyKept] at huPixels huHit huMiss
  refine ⟨t, u, ht, hu, fun px py hpx hpy => ?_, htVF ?_, fun hd => huHit (hcollides.2 hd),
    fun hd => huMiss (mt hcollides.1 hd)⟩
  · rw [huPixels px py hpx hpy, hbits px py hpx hpy, hsprite, Bool.xor_self]
  · rintro ⟨px, py, hpx, hpy, -, hlit⟩
    exact absurd hlit (by rw [hclear px py hpx hpy]; decide)

end Sys2Proof.Machine

/-!
What exec and step can do, said once for every instruction: it raises one of the three faults, or it
completes, writing no more than its row allows (spec/10_state.md rules R33 to R39;
spec/60_exceptions.md rules R312, R316). The whole-machine rules are read off that.
-/

namespace Sys2Proof.Machine

/-! ### The two ways an instruction ends -/

/-- The faults that instructions raise, each with its condition and its recorded value (rules R141,
R161, R262). -/
def Raises (i : Instr) (s : State) (f : Fault) : Prop :=
  ((∃ nnn, i = .call nnn) ∧ s.sp.val = stackDepth ∧ f = .stackOverflow s.pc) ∨
  ((∃ x, i = .ret x) ∧ s.sp.val = 0 ∧ f = .stackUnderflow s.pc) ∨
  (∃ x y n, i = .drw x y n ∧ 0 < n.toNat ∧ memSize < s.index.toNat + n.toNat ∧
    f = .memoryOutOfRange (BitVec.ofNat 16 (max s.index.toNat memSize)))

/-- Where an instruction that completes may leave pc (rule R35). -/
def PcAfter (i : Instr) (s : State) (p : Word) : Prop :=
  match i with
  | .seImm _ _ | .sneImm _ _ | .seReg _ _ _ | .sneReg _ _ _ =>
    p = s.pc + 2#16 ∨ p = s.pc + 4#16
  | .jp nnn | .call nnn => p = absoluteAddress nnn
  | .jpV0 nnn => p = offsetAddress (s.getV 0x0#4) nnn
  | .ret _ => ∃ k, ∃ h : k < stackDepth, k + 1 = s.sp.val ∧ p = s.stack[k]
  | _ => p = s.pc + 2#16

/-- CALL's push of the address after it (rule R161). -/
def Pushes (s t : State) : Prop :=
  ∃ h : s.sp.val < stackDepth,
    t.sp.val = s.sp.val + 1 ∧ t.stack = s.stack.set s.sp.val (s.pc + 2#16) h

/-- RET's pop, which leaves the entries as they are (rules R39, R141). -/
def Pops (s t : State) : Prop := t.sp.val + 1 = s.sp.val ∧ t.stack = s.stack

/-- Everything an instruction that raises no fault can do to each component of the state. -/
structure Completes (i : Instr) (s t : State) : Prop where
  frame : t = { s with
    v := t.v, index := t.index, pc := t.pc, stack := t.stack, sp := t.sp, display := t.display
    reply := t.reply, stepped := true }
  reply : ∀ f, t.reply ≠ .fault f
  regs : KeepsRegsBut i.writes s t
  pc : PcAfter i s t.pc
  index : t.index = s.index ∨ ∃ nnn, i = .ldI nnn ∧ t.index = absoluteAddress nnn
  stack : KeepsStack s t ∨ ((∃ nnn, i = .call nnn) ∧ Pushes s t) ∨ ((∃ x, i = .ret x) ∧ Pops s t)
  display : t.display = s.display ∨ (∃ x, i = .cls x) ∨ ∃ x y n, i = .drw x y n

section
variable {i : Instr} {s t : State}

/-- An instruction that writes pc alone. -/
theorem Completes.of_pc {p : Word} {r : Reply}
    (h : t = { s with pc := p, reply := r, stepped := true }) (hreply : ∀ f, r ≠ .fault f)
    (hpc : PcAfter i s p) : Completes i s t := by
  subst h
  exact ⟨rfl, hreply, KeepsRegsBut.of_v_eq rfl _, hpc, .inl rfl, .inl ⟨rfl, rfl⟩, .inl rfl⟩

theorem Completes.of_jump {p : Word} (h : complete { s with pc := p } = .next t)
    (hpc : PcAfter i s p) : Completes i s t := by
  have ht := complete_eq_next.1 h
  exact .of_pc ht (fun _ => Reply.noConfusion) hpc

theorem Completes.of_skip {c : Bool} (h : complete (s.advance.skipIf c) = .next t)
    (hpc : ∀ p, p = s.pc + 2#16 ∨ p = s.pc + 4#16 → PcAfter i s p) : Completes i s t := by
  rw [State.advance_skipIf_eq] at h
  refine .of_jump h (hpc _ ?_)
  rw [State.advance_skipIf_pc]
  cases c
  · exact .inl rfl
  · exact .inr rfl

theorem Completes.of_unsupportedStep {w : Word} (h : unsupportedStep w s = .next t)
    (hpc : PcAfter i s (s.pc + 2#16)) : Completes i s t := by
  refine .of_pc (unsupportedStep_eq_next.1 h) (fun f => ?_) hpc
  cases s.cfg.unsupportedMode
  · exact Reply.noConfusion
  · exact Reply.noConfusion

/-- An instruction that writes registers alone and advances. -/
theorem Completes.of_regs {a : State} (h : complete a = .next t)
    (ha : a = { s with pc := s.pc + 2#16, v := a.v }) (hregs : KeepsRegsBut i.writes s a)
    (hpc : PcAfter i s (s.pc + 2#16)) : Completes i s t := by
  obtain rfl := complete_eq_next.1 h
  have hv : KeepsRegsBut i.writes s { a with reply := .ok, stepped := true } := hregs
  rw [ha] at hv ⊢
  exact ⟨rfl, fun _ => Reply.noConfusion, hv, hpc, .inl rfl, .inl ⟨rfl, rfl⟩, .inl rfl⟩

theorem Completes.of_setV {x : Nibble} {b : Byte} (h : complete (s.advance.setV x b) = .next t)
    (hwrites : i.writes = [x]) (hpc : PcAfter i s (s.pc + 2#16)) : Completes i s t :=
  .of_regs h rfl (hwrites ▸ KeepsRegsBut.advance_setV s x b) hpc

theorem State.advance_flagThenResult_eq (s : State) (x y : Nibble)
    (flag result : Byte → Byte → Byte) :
    s.advance.flagThenResult x y flag result = { s with
      pc := s.pc + 2#16, v := (s.advance.flagThenResult x y flag result).v } := by
  simp only [State.flagThenResult]
  split <;> rfl

theorem Completes.of_flagThenResult {x y : Nibble} {flag result : Byte → Byte → Byte}
    (h : complete (s.advance.flagThenResult x y flag result) = .next t)
    (hwrites : i.writes = [regVF, x]) (hpc : PcAfter i s (s.pc + 2#16)) : Completes i s t :=
  .of_regs h (State.advance_flagThenResult_eq ..)
    (hwrites ▸ KeepsRegsBut.advance_flagThenResult s x y flag result) hpc

theorem Completes.of_cls {x : Nibble} (h : exec (.cls x) s = .next t) :
    Completes (.cls x) s t := by
  obtain rfl := complete_eq_next.1 h
  exact ⟨rfl, fun _ => Reply.noConfusion, KeepsRegsBut.of_v_eq rfl _, rfl, .inl rfl,
    .inl ⟨rfl, rfl⟩, .inr (.inl ⟨x, rfl⟩)⟩

theorem Completes.of_ldI {nnn : Addr12} (h : exec (.ldI nnn) s = .next t) :
    Completes (.ldI nnn) s t := by
  obtain rfl := complete_eq_next.1 h
  exact ⟨rfl, fun _ => Reply.noConfusion, KeepsRegsBut.of_v_eq rfl _, rfl, .inr ⟨nnn, rfl, rfl⟩,
    .inl ⟨rfl, rfl⟩, .inl rfl⟩

end

/-! ### Every instruction ends in one of the two -/

section
variable {s t : State}

theorem ret_cases {x : Nibble} (h : exec (.ret x) s = .next t) :
    (∃ f, Raises (.ret x) s f ∧ FaultTaken f s t) ∨ Completes (.ret x) s t := by
  rcases Nat.eq_zero_or_pos s.sp.val with hempty | hpos
  · rw [exec_ret_of_empty x hempty] at h
    exact .inl ⟨_, .inr (.inl ⟨⟨x, rfl⟩, hempty, rfl⟩), raise_eq_next.1 h⟩
  · rw [exec_ret_of_pos x hpos] at h
    obtain rfl := complete_eq_next.1 h
    have hdepth : s.sp.val - 1 + 1 = s.sp.val := Nat.sub_add_cancel hpos
    exact .inr ⟨rfl, fun _ => Reply.noConfusion, KeepsRegsBut.of_v_eq rfl _,
      ⟨s.sp.val - 1, _, hdepth, rfl⟩, .inl rfl, .inr (.inr ⟨⟨x, rfl⟩, hdepth, rfl⟩), .inl rfl⟩

theorem call_cases {nnn : Addr12} (h : exec (.call nnn) s = .next t) :
    (∃ f, Raises (.call nnn) s f ∧ FaultTaken f s t) ∨ Completes (.call nnn) s t := by
  rcases s.sp_lt_or_full with hlt | hfull
  · rw [exec_call_of_lt nnn hlt] at h
    obtain rfl := complete_eq_next.1 h
    exact .inr ⟨rfl, fun _ => Reply.noConfusion, KeepsRegsBut.of_v_eq rfl _, rfl, .inl rfl,
      .inr (.inl ⟨⟨nnn, rfl⟩, hlt, rfl, rfl⟩), .inl rfl⟩
  · rw [exec_call_of_full nnn hfull] at h
    exact .inl ⟨_, .inl ⟨⟨nnn, rfl⟩, hfull, rfl⟩, raise_eq_next.1 h⟩

/-- A draw stays in memory, or has a byte past it. -/
theorem drw_in_or_out (s : State) (n : Nibble) :
    (n.toNat = 0 ∨ s.index.toNat + n.toNat ≤ memSize) ∨
      (0 < n.toNat ∧ memSize < s.index.toNat + n.toNat) := by
  omega

theorem drw_cases {x y n : Nibble} (h : exec (.drw x y n) s = .next t) :
    (∃ f, Raises (.drw x y n) s f ∧ FaultTaken f s t) ∨ Completes (.drw x y n) s t := by
  rcases drw_in_or_out s n with hin | ⟨hn, hout⟩
  · rw [exec_drw_of_in_range x y hin] at h
    obtain rfl := complete_eq_next.1 h
    exact .inr ⟨rfl, fun _ => Reply.noConfusion, KeepsRegsBut.advance_setV s regVF _, rfl,
      .inl rfl, .inl ⟨rfl, rfl⟩, .inr (.inr ⟨x, y, n, rfl⟩)⟩
  · rw [exec_drw_of_out_of_range x y hn hout] at h
    exact .inl ⟨_, .inr (.inr ⟨x, y, n, rfl, hn, hout, rfl⟩), raise_eq_next.1 h⟩

/-- Everything an instruction that answers a next state can have done. -/
theorem exec_cases {i : Instr} (h : exec i s = .next t) :
    (∃ f, Raises i s f ∧ FaultTaken f s t) ∨ Completes i s t := by
  cases i with
  | ret x => exact ret_cases h
  | call nnn => exact call_cases h
  | drw x y n => exact drw_cases h
  | cls x => exact .inr (.of_cls h)
  | ldI nnn => exact .inr (.of_ldI h)
  | jp nnn => exact .inr (.of_jump h rfl)
  | jpV0 nnn => exact .inr (.of_jump h rfl)
  | seImm x nn => exact .inr (.of_skip h fun _ => id)
  | sneImm x nn => exact .inr (.of_skip h fun _ => id)
  | seReg x y n => exact .inr (.of_skip h fun _ => id)
  | sneReg x y n => exact .inr (.of_skip h fun _ => id)
  | ldImm x nn => exact .inr (.of_setV h rfl rfl)
  | addImm x nn => exact .inr (.of_setV h rfl rfl)
  | ldReg x y => exact .inr (.of_setV h rfl rfl)
  | orReg x y => exact .inr (.of_setV h rfl rfl)
  | andReg x y => exact .inr (.of_setV h rfl rfl)
  | xorReg x y => exact .inr (.of_setV h rfl rfl)
  | addReg x y => exact .inr (.of_flagThenResult h rfl rfl)
  | sub x y => exact .inr (.of_flagThenResult h rfl rfl)
  | shr x y => exact .inr (.of_flagThenResult h rfl rfl)
  | subn x y => exact .inr (.of_flagThenResult h rfl rfl)
  | shl x y => exact .inr (.of_flagThenResult h rfl rfl)
  | unsupported0 nnn => exact .inr (.of_unsupportedStep h rfl)
  | unsupported8 x y n => exact .inr (.of_unsupportedStep h rfl)
  | unsupportedC nnn => exact .inr (.of_unsupportedStep h rfl)
  | unsupportedE nnn => exact .inr (.of_unsupportedStep h rfl)
  | unsupportedF nnn => exact .inr (.of_unsupportedStep h rfl)

/-- A value that is out of range fits a word, so it is recorded whole (rule R311). -/
theorem outOfRange_toNat (w : Word) :
    (BitVec.ofNat 16 (max w.toNat memSize)).toNat = max w.toNat memSize := by
  rw [BitVec.toNat_ofNat]
  exact Nat.mod_eq_of_lt (Nat.max_lt.2 ⟨w.isLt, by decide⟩)

theorem explains_outOfRange (s : State) (w : Word) :
    s.explains (.memoryOutOfRange (BitVec.ofNat 16 (max w.toNat memSize))) :=
  (Nat.le_max_right w.toNat memSize).trans_eq (outOfRange_toNat w).symm

/-- A raised fault is explained by the state that raised it (rules R141, R161, R262). -/
theorem Raises.explains {i : Instr} {f : Fault} (h : Raises i s f) : s.explains f := by
  obtain ⟨-, hfull, rfl⟩ | ⟨-, hempty, rfl⟩ | ⟨x, y, n, -, -, -, rfl⟩ := h
  · exact ⟨rfl, hfull⟩
  · exact ⟨rfl, hempty⟩
  · exact explains_outOfRange s s.index

/-- Everything a step that answers a next state can have done: the fetch or the instruction raised a
fault, or the instruction at pc, both of whose bytes lie in memory, completed. -/
theorem step_cases (h : step s = .next t) : s.rs = .running ∧ s.fl = none ∧
    ((∃ f, s.explains f ∧ FaultTaken f s t) ∨
      (s.pc.toNat + 2 ≤ memSize ∧ ∃ i, Completes i s t)) := by
  obtain ⟨hrs, hfl, ⟨-, hraise⟩ | ⟨hpc, hexec⟩⟩ := step_eq_next h
  · exact ⟨hrs, hfl, .inl ⟨_, explains_outOfRange s s.pc, raise_eq_next.1 hraise⟩⟩
  · refine ⟨hrs, hfl, (exec_cases hexec).imp ?_ fun hdone => ⟨hpc, _, hdone⟩⟩
    rintro ⟨f, hraises, hfault⟩
    exact ⟨f, hraises.explains, hfault⟩

/-! ### What no instruction and no step writes -/

/-- The components that instructions cannot write: memory, the timers, the keypad, the run state and
the configuration (rules R40, R41, R44, R79). -/
def KeepsUnwritable (s t : State) : Prop :=
  t.mem = s.mem ∧ KeepsHostSide s t

theorem FaultTaken.keepsUnwritable {f : Fault} (h : FaultTaken f s t) : KeepsUnwritable s t := by
  rw [h]
  exact ⟨rfl, rfl, rfl, rfl, rfl, rfl⟩

theorem Completes.keepsUnwritable {i : Instr} (h : Completes i s t) : KeepsUnwritable s t := by
  rw [h.frame]
  exact ⟨rfl, rfl, rfl, rfl, rfl, rfl⟩

theorem exec_keepsUnwritable {i : Instr} (h : exec i s = .next t) : KeepsUnwritable s t := by
  obtain ⟨f, -, hfault⟩ | hdone := exec_cases h
  · exact hfault.keepsUnwritable
  · exact hdone.keepsUnwritable

theorem step_keepsUnwritable (h : step s = .next t) : KeepsUnwritable s t := by
  obtain ⟨-, -, ⟨f, -, hfault⟩ | ⟨-, i, hdone⟩⟩ := step_cases h
  · exact hfault.keepsUnwritable
  · exact hdone.keepsUnwritable

end

/-- Settles O34: memory is among the components that no instruction and no step writes. -/
theorem noInstructionWritesMemory : Obligations.NoInstructionWritesMemory :=
  ⟨fun _ _ _ h => KeepsMemory.of_mem_eq (exec_keepsUnwritable h).1,
    fun _ _ h => KeepsMemory.of_mem_eq (step_keepsUnwritable h).1⟩

/-- Settles O35: the host's side is among the components that no instruction and no step writes. -/
theorem noInstructionWritesTheHostSide : Obligations.NoInstructionWritesTheHostSide :=
  ⟨fun _ _ _ h => (exec_keepsUnwritable h).2, fun _ _ h => (step_keepsUnwritable h).2⟩

/-! ### What an instruction may write -/

/-- Settles O37: a fault writes no register, and a completed instruction only its row's. -/
theorem registersOutsideTheWriteSetAreKept : Obligations.RegistersOutsideTheWriteSetAreKept := by
  intro i s t h
  obtain ⟨f, -, hfault⟩ | hdone := exec_cases h
  · exact KeepsRegsBut.of_v_eq (congrArg State.v hfault) i.writes
  · exact hdone.regs

/-- Settles O39: a fault writes none of the three, and a completed instruction only the one that is
its own. -/
theorem indexStackAndDisplayHaveTheirWriters :
    Obligations.IndexStackAndDisplayHaveTheirWriters := by
  intro i s t h
  obtain ⟨f, -, hfault⟩ | hdone := exec_cases h
  · have hstack : KeepsStack s t := by
      rw [hfault]
      exact ⟨rfl, rfl⟩
    exact ⟨fun hne => absurd (congrArg State.index hfault) hne, fun hne => absurd hstack hne,
      fun hne => absurd (congrArg State.display hfault) hne⟩
  · refine ⟨fun hne => ?_, fun hne => ?_, hdone.display.resolve_left⟩
    · obtain ⟨nnn, hi, -⟩ := hdone.index.resolve_left hne
      exact ⟨nnn, hi⟩
    · exact (hdone.stack.resolve_left hne).imp And.left And.left

/-- Settles O40: a step that returned no fault completed, and the addresses of the jumps are the
operands' numbers. -/
theorem pcGoesWhereTheInstructionSays : Obligations.PcGoesWhereTheInstructionSays := by
  intro i s t h hreply
  obtain ⟨f, -, hfault⟩ | hdone := exec_cases h
  · exact absurd (congrArg State.reply hfault) (hreply f)
  have hpc := hdone.pc
  cases i
  case jp nnn => exact (congrArg BitVec.toNat hpc).trans (absoluteAddress_toNat nnn)
  case call nnn => exact (congrArg BitVec.toNat hpc).trans (absoluteAddress_toNat nnn)
  case jpV0 nnn => exact (congrArg BitVec.toNat hpc).trans (offsetAddress_toNat _ nnn)
  all_goals exact hpc

/-! ### Faults -/

/-- Settles O41: an instruction that completes returns no fault, so a returned one was raised. -/
theorem onlyCallRetAndDrwFault : Obligations.OnlyCallRetAndDrwFault := by
  intro i s t f h hreply
  obtain ⟨g, hraises, hfault⟩ | hdone := exec_cases h
  · have hg : Reply.fault g = .fault f := (congrArg State.reply hfault).symm.trans hreply
    obtain rfl := Reply.fault.inj hg
    exact hraises
  · exact absurd hreply (hdone.reply f)

/-- Settles O42: a taken fault is the one latched, and an instruction that completes latches and
returns none. -/
theorem faultsArePrecise : Obligations.FaultsArePrecise := by
  intro s t hfl h
  obtain ⟨-, -, ⟨g, -, hfault⟩ | ⟨-, i, hdone⟩⟩ := step_cases h
  · have hlatch : t.fl = some g := congrArg State.fl hfault
    refine ⟨fun f hf => ?_, fun hnone => absurd (hlatch.symm.trans hnone) (by simp)⟩
    obtain rfl := Option.some.inj (hlatch.symm.trans hf)
    exact hfault
  · have hlatch : t.fl = none := (congrArg State.fl hdone.frame).trans hfl
    exact ⟨fun f hf => absurd (hlatch.symm.trans hf) (by simp), fun _ => hdone.reply⟩

/-! ### The step -/

theorem step_of_not_running {s : State} (h : s.rs ≠ .running) : step s = .refused .notRunning := by
  rw [step, gate_of_not_running h]

theorem step_of_latched {s : State} {f : Fault} (hrs : s.rs = .running) (hfl : s.fl = some f) :
    step s = .fault f := by
  rw [step, gate_of_latched hrs hfl]

theorem step_of_in_range {s : State} (hrs : s.rs = .running) (hfl : s.fl = none)
    (hpc : s.pc.toNat + 2 ≤ memSize) :
    step s = exec (decode s.cfg
      (opcodeOfBytes (s.mem.read s.pc.toNat) (s.mem.read (s.pc.toNat + 1)))) s := by
  rw [step, gate_eq_none.2 ⟨hrs, hfl⟩, fetch_of_in_range hpc]

theorem step_of_out_of_range {s : State} (hrs : s.rs = .running) (hfl : s.fl = none)
    (hpc : memSize < s.pc.toNat + 2) :
    step s = raise (.memoryOutOfRange (BitVec.ofNat 16 (max s.pc.toNat memSize))) s := by
  rw [step, gate_eq_none.2 ⟨hrs, hfl⟩, fetch_of_out_of_range hpc]

/-- Settles O7: past the gates and the fetch, step is exec. -/
theorem stepRunsTheDecodedInstruction : Obligations.StepRunsTheDecodedInstruction :=
  fun _ hrs hfl hpc => step_of_in_range hrs hfl (Nat.add_le_add_right hpc 2)

/-- Settles O8: the fetch fault is raised before anything is decoded. -/
theorem fetchPastMemoryFaults : Obligations.FetchPastMemoryFaults :=
  fun _ hrs hfl hpc =>
    exists_next_of_raise (step_of_out_of_range hrs hfl (Nat.add_le_add_right hpc 2))

/-- Settles O9: the two gates, in their order. -/
theorem gatedStepsChangeNothing : Obligations.GatedStepsChangeNothing := by
  refine ⟨fun s hrs => ?_, fun s f hrs hfl => ?_⟩
  · have hstep := step_of_not_running hrs
    exact ⟨hstep, by rw [stepCommand, hstep]⟩
  · have hstep := step_of_latched hrs hfl
    exact ⟨hstep, by rw [stepCommand, hstep]⟩

/-- Every instruction answers a next state in every state: there is no other arm. -/
theorem exec_answers (i : Instr) (s : State) : ∃ t, exec i s = .next t := by
  cases i
  case ret x =>
    rcases Nat.eq_zero_or_pos s.sp.val with hempty | hpos
    · exact ⟨_, exec_ret_of_empty x hempty⟩
    · exact ⟨_, exec_ret_of_pos x hpos⟩
  case call nnn =>
    rcases s.sp_lt_or_full with hlt | hfull
    · exact ⟨_, exec_call_of_lt nnn hlt⟩
    · exact ⟨_, exec_call_of_full nnn hfull⟩
  case drw x y n =>
    rcases drw_in_or_out s n with hin | ⟨hn, hout⟩
    · exact ⟨_, exec_drw_of_in_range x y hin⟩
    · exact ⟨_, exec_drw_of_out_of_range x y hn hout⟩
  case unsupported0 nnn => exact ⟨_, unsupportedStep_eq_next.2 rfl⟩
  case unsupported8 x y n => exact ⟨_, unsupportedStep_eq_next.2 rfl⟩
  case unsupportedC nnn => exact ⟨_, unsupportedStep_eq_next.2 rfl⟩
  case unsupportedE nnn => exact ⟨_, unsupportedStep_eq_next.2 rfl⟩
  case unsupportedF nnn => exact ⟨_, unsupportedStep_eq_next.2 rfl⟩
  all_goals exact ⟨_, complete_eq_next.2 rfl⟩

/-- Settles O10: past the gates the step raises the fetch fault or runs an instruction. -/
theorem runningStepsAlwaysAnswer : Obligations.RunningStepsAlwaysAnswer := by
  intro s hrs hfl
  rcases Nat.lt_or_ge memSize (s.pc.toNat + 2) with hout | hin
  · exact ⟨_, step_of_out_of_range hrs hfl hout⟩
  · rw [step_of_in_range hrs hfl hin]
    exact exec_answers _ s

/-! ### The invariant -/

section
variable {s t : State}

/-- Taking an explained fault keeps the invariant: nothing else changes. -/
theorem FaultTaken.inv {f : Fault} (h : FaultTaken f s t) (hexplains : s.explains f)
    (hs : s.Inv) : t.Inv := by
  subst h
  refine { hs with latchExplained := fun g hg => ?_ }
  obtain rfl := Option.some.inj hg
  exact ⟨by cases f <;> exact hexplains, rfl⟩

/-- An advance that stays within a word is an addition of numbers. -/
theorem pc_add_toNat {d : Nat} (hd : d ≤ 4) (hpc : s.pc.toNat + 2 ≤ memSize) :
    (s.pc + BitVec.ofNat 16 d).toNat = s.pc.toNat + d := by
  have hsize : memSize = 4096 := rfl
  rw [BitVec.toNat_add, BitVec.toNat_ofNat]
  omega

/-- Rule R37: from an address inside memory, pc ends at most at 0x10FE. -/
theorem PcAfter.le {i : Instr} {p : Word} (h : PcAfter i s p) (hs : s.Inv)
    (hpc : s.pc.toNat + 2 ≤ memSize) : p.toNat ≤ 0x10FE := by
  have hsize : memSize = 4096 := rfl
  have htwo : (s.pc + 2#16).toNat ≤ 0x10FE := by
    rw [pc_add_toNat (by decide) hpc]
    omega
  have hskip : p = s.pc + 2#16 ∨ p = s.pc + 4#16 → p.toNat ≤ 0x10FE := by
    rintro (rfl | rfl)
    · exact htwo
    · rw [pc_add_toNat (by decide) hpc]
      omega
  have hjump : ∀ nnn, p = absoluteAddress nnn → p.toNat ≤ 0x10FE := by
    rintro nnn rfl
    have hnnn := nnn.isLt
    rw [absoluteAddress_toNat]
    omega
  cases i
  case seImm x nn => exact hskip h
  case sneImm x nn => exact hskip h
  case seReg x y n => exact hskip h
  case sneReg x y n => exact hskip h
  case jp nnn => exact hjump nnn h
  case call nnn => exact hjump nnn h
  case jpV0 nnn =>
    have hv0 := (s.getV 0x0#4).isLt
    have hnnn := nnn.isLt
    rw [show p = _ from h, offsetAddress_toNat]
    omega
  case ret x =>
    obtain ⟨k, hk, hdepth, rfl⟩ := h
    exact (hs.returnsInRange k hk (by omega)).trans (by decide)
  all_goals exact (congrArg BitVec.toNat h).trans_le htwo

/-- Rule R141: a pushed return address is at most the end of memory, and a pop writes no entry. -/
theorem Completes.returnsInRange {i : Instr} (h : Completes i s t) (hs : s.Inv)
    (hpc : s.pc.toNat + 2 ≤ memSize) :
    ∀ k (hk : k < stackDepth), k < t.sp.val → t.stack[k].toNat ≤ 0x1000 := by
  intro k hk hlt
  obtain ⟨hsp, hstack⟩ | ⟨-, hroom, hsp, hstack⟩ | ⟨-, hsp, hstack⟩ := h.stack
  · simp only [hstack]
    exact hs.returnsInRange k hk (hsp ▸ hlt)
  · simp only [hstack, Vector.getElem_set]
    split
    · rw [pc_add_toNat (by decide) hpc]
      exact hpc
    · exact hs.returnsInRange k hk (by omega)
  · simp only [hstack]
    exact hs.returnsInRange k hk (by omega)

/-- Rule R34: LD_I writes a 12-bit address, and nothing else writes I. -/
theorem Completes.indexInRange {i : Instr} (h : Completes i s t) (hs : s.Inv) :
    t.index.toNat ≤ 0x0FFF := by
  obtain hindex | ⟨nnn, -, hindex⟩ := h.index
  · exact hindex ▸ hs.indexInRange
  · rw [hindex, absoluteAddress_toNat]
    exact Nat.le_of_lt_succ nnn.isLt

/-- An instruction fetched from inside memory keeps the invariant if it completes. -/
theorem Completes.inv {i : Instr} (h : Completes i s t) (hs : s.Inv) (hfl : s.fl = none)
    (hpc : s.pc.toNat + 2 ≤ memSize) : t.Inv := by
  obtain ⟨hmem, hcfg, -⟩ := h.keepsUnwritable
  have hlatch : t.fl = none := (congrArg State.fl h.frame).trans hfl
  exact {
    memCanonical := hmem ▸ hs.memCanonical
    fillCanonical := hcfg ▸ hs.fillCanonical
    fontIntact := by
      rw [hmem, hcfg]
      exact hs.fontIntact
    indexInRange := h.indexInRange hs
    pcInRange := h.pc.le hs hpc
    returnsInRange := h.returnsInRange hs hpc
    latchExplained := fun f hf => absurd (hlatch.symm.trans hf) (by simp) }

end

/-- Settles O44: a step takes an explained fault or completes an instruction, and both keep the
invariant. -/
theorem everyStepKeepsTheInvariant : Obligations.EveryStepKeepsTheInvariant := by
  intro s t hs h
  obtain ⟨-, hfl, ⟨f, hexplains, hfault⟩ | ⟨hpc, i, hdone⟩⟩ := step_cases h
  · exact hfault.inv hexplains hs
  · exact hdone.inv hs hfl hpc

end Sys2Proof.Machine

/-!
Noninterference (spec/10_state.md rules R33, R49): the timers and the keypad, and the registers that
an instruction does not read, have no influence on what it does.
-/

namespace Sys2Proof.Machine

/-! ### The timers and the keypad -/

/-- The state with other values in the timers and the keypad. -/
def State.withHost (s : State) (dt st : Byte) (keypad : Vector Bool 16) : State :=
  { s with dt := dt, st := st, keypad := keypad }

/-- An outcome with its next state, if it has one, changed. -/
def mapNext (g : State → State) :
    Host.Outcome State Fault Refusal → Host.Outcome State Fault Refusal
  | .next t => .next (g t)
  | .fault f => .fault f
  | .refused r => .refused r

section
variable (s : State) (dt st : Byte) (keypad : Vector Bool 16)

theorem State.flagThenResult_withHost (x y : Nibble) (flag result : Byte → Byte → Byte) :
    (s.withHost dt st keypad).flagThenResult x y flag result =
      (s.flagThenResult x y flag result).withHost dt st keypad := by
  simp only [State.flagThenResult, State.withHost]
  split <;> rfl

theorem State.skipIf_withHost (c : Bool) :
    (s.withHost dt st keypad).skipIf c = (s.skipIf c).withHost dt st keypad := by
  cases c <;> rfl

/-- Completing does not depend on the timers and the keypad. -/
theorem complete_withHost {a a' : State} (h : a' = a.withHost dt st keypad) :
    complete a' = mapNext (·.withHost dt st keypad) (complete a) := h ▸ rfl

theorem flagStep_withHost (x y : Nibble) (flag result : Byte → Byte → Byte) :
    complete ((s.withHost dt st keypad).advance.flagThenResult x y flag result) =
      mapNext (·.withHost dt st keypad) (complete (s.advance.flagThenResult x y flag result)) :=
  complete_withHost dt st keypad (State.flagThenResult_withHost s.advance ..)

theorem skipStep_withHost (c : Bool) :
    complete ((s.withHost dt st keypad).advance.skipIf c) =
      mapNext (·.withHost dt st keypad) (complete (s.advance.skipIf c)) :=
  complete_withHost dt st keypad (State.skipIf_withHost s.advance ..)

theorem unsupportedStep_withHost (w : Word) :
    unsupportedStep w (s.withHost dt st keypad) =
      mapNext (·.withHost dt st keypad) (unsupportedStep w s) := by
  rw [unsupportedStep_eq_next.2 rfl, unsupportedStep_eq_next.2 rfl]
  rfl

/-- No instruction observes the timers or the keypad. -/
theorem exec_withHost (i : Instr) :
    exec i (s.withHost dt st keypad) = mapNext (·.withHost dt st keypad) (exec i s) := by
  cases i
  case ret x =>
    rcases Nat.eq_zero_or_pos s.sp.val with hempty | hpos
    · rw [exec_ret_of_empty x hempty, exec_ret_of_empty (s := s.withHost dt st keypad) x hempty]
      rfl
    · rw [exec_ret_of_pos x hpos, exec_ret_of_pos (s := s.withHost dt st keypad) x hpos]
      rfl
  case call nnn =>
    rcases s.sp_lt_or_full with hlt | hfull
    · rw [exec_call_of_lt nnn hlt, exec_call_of_lt (s := s.withHost dt st keypad) nnn hlt]
      rfl
    · rw [exec_call_of_full nnn hfull, exec_call_of_full (s := s.withHost dt st keypad) nnn hfull]
      rfl
  case drw x y n =>
    rcases drw_in_or_out s n with hin | ⟨hn, hout⟩
    · rw [exec_drw_of_in_range x y hin, exec_drw_of_in_range (s := s.withHost dt st keypad) x y hin]
      rfl
    · rw [exec_drw_of_out_of_range x y hn hout,
        exec_drw_of_out_of_range (s := s.withHost dt st keypad) x y hn hout]
      rfl
  case addReg x y => exact flagStep_withHost ..
  case sub x y => exact flagStep_withHost ..
  case shr x y => exact flagStep_withHost ..
  case subn x y => exact flagStep_withHost ..
  case shl x y => exact flagStep_withHost ..
  case seImm x nn => exact skipStep_withHost ..
  case sneImm x nn => exact skipStep_withHost ..
  case seReg x y n => exact skipStep_withHost ..
  case sneReg x y n => exact skipStep_withHost ..
  case unsupported0 nnn => exact unsupportedStep_withHost ..
  case unsupported8 x y n => exact unsupportedStep_withHost ..
  case unsupportedC nnn => exact unsupportedStep_withHost ..
  case unsupportedE nnn => exact unsupportedStep_withHost ..
  case unsupportedF nnn => exact unsupportedStep_withHost ..
  all_goals rfl

/-- No step observes the timers or the keypad: neither do the gates and the fetch. -/
theorem step_withHost :
    step (s.withHost dt st keypad) = mapNext (·.withHost dt st keypad) (step s) := by
  by_cases hrs : s.rs = .running
  · cases hfl : s.fl with
    | some f =>
      rw [step_of_latched hrs hfl, step_of_latched (s := s.withHost dt st keypad) hrs hfl]
      rfl
    | none =>
      rcases Nat.lt_or_ge memSize (s.pc.toNat + 2) with hout | hin
      · rw [step_of_out_of_range hrs hfl hout,
          step_of_out_of_range (s := s.withHost dt st keypad) hrs hfl hout]
        rfl
      · rw [step_of_in_range hrs hfl hin,
          step_of_in_range (s := s.withHost dt st keypad) hrs hfl hin]
        exact exec_withHost s dt st keypad _
  · rw [step_of_not_running hrs, step_of_not_running (s := s.withHost dt st keypad) hrs]
    rfl

end

/-- Settles O36: the step commutes with putting other values into the timers and the keypad. -/
theorem timersAndKeypadAreNotObserved : Obligations.TimersAndKeypadAreNotObserved := by
  intro s dt st keypad
  refine (step_withHost s dt st keypad).trans ?_
  cases step s <;> rfl

/-! ### Registers outside the read set -/

/-- What two runs that differ in registers not read may differ in afterwards: general registers
only, and where no fault was returned not the listed ones. -/
def DifferInOtherRegs (ws : List Nibble) (t t' : State) : Prop :=
  t' = { t with v := t'.v } ∧ ((∀ f, t.reply ≠ .fault f) → ∀ k ∈ ws, t'.getV k = t.getV k)

section
variable {s t t' : State} {ws : List Nibble} {v' : Vector Byte 16}

theorem DifferInOtherRegs.of_complete {a a' : State} (h : complete a = .next t)
    (h' : complete a' = .next t') (ha : a' = { a with v := a'.v })
    (hws : ∀ k ∈ ws, a'.getV k = a.getV k) : DifferInOtherRegs ws t t' := by
  obtain rfl := complete_eq_next.1 h
  obtain rfl := complete_eq_next.1 h'
  exact ⟨congrArg (fun u : State => { u with reply := .ok, stepped := true }) ha, fun _ => hws⟩

/-- An instruction that writes no register and completes. -/
theorem DifferInOtherRegs.of_complete_nil {a a' : State} (h : complete a = .next t)
    (h' : complete a' = .next t') (ha : a' = { a with v := a'.v }) : DifferInOtherRegs [] t t' :=
  .of_complete h h' ha fun _ hk => absurd hk List.not_mem_nil

theorem DifferInOtherRegs.of_raise {f : Fault} (h : raise f s = .next t)
    (h' : raise f { s with v := v' } = .next t') : DifferInOtherRegs ws t t' := by
  obtain rfl := raise_eq_next.1 h
  obtain rfl := raise_eq_next.1 h'
  exact ⟨rfl, fun hreply => absurd rfl (hreply f)⟩

theorem DifferInOtherRegs.of_skip {c c' : Bool} (h : complete (s.advance.skipIf c) = .next t)
    (h' : complete (State.skipIf c' { s.advance with v := v' }) = .next t') (hc : c' = c) :
    DifferInOtherRegs [] t t' := by
  refine .of_complete_nil h h' ?_
  rw [hc]
  cases c <;> rfl

theorem DifferInOtherRegs.of_unsupportedStep {w : Word} (h : unsupportedStep w s = .next t)
    (h' : unsupportedStep w { s with v := v' } = .next t') : DifferInOtherRegs [] t t' := by
  obtain rfl := unsupportedStep_eq_next.1 h
  obtain rfl := unsupportedStep_eq_next.1 h'
  exact ⟨rfl, fun _ _ hk => absurd hk List.not_mem_nil⟩

theorem DifferInOtherRegs.of_setV {x : Nibble} {b b' : Byte}
    (h : complete (s.advance.setV x b) = .next t)
    (h' : complete (State.setV { s.advance with v := v' } x b') = .next t') (hb : b' = b) :
    DifferInOtherRegs [x] t t' := by
  refine .of_complete h h' rfl fun k hk => ?_
  rw [List.mem_singleton.1 hk, State.getV_setV_self, State.getV_setV_self, hb]

/-- The flag and the result are functions of the two operands that the row reads. -/
theorem DifferInOtherRegs.of_flagThenResult {x y : Nibble} {flag result : Byte → Byte → Byte}
    (h : complete (s.advance.flagThenResult x y flag result) = .next t)
    (h' : complete (State.flagThenResult { s.advance with v := v' } x y flag result) = .next t')
    (hx : State.getV { s with v := v' } x = s.getV x)
    (hy : State.getV { s with v := v' } y = s.getV y) :
    DifferInOtherRegs [regVF, x] t t' := by
  have hoperand : ∀ b r, State.getV { s.advance with v := v' } r = s.advance.getV r →
      operandByte { s.advance with v := v' } b r = operandByte s.advance b r := by
    intro b r hr
    simp only [operandByte, hr]
  have hx' : State.getV { s.advance with v := v' } x = s.advance.getV x := hx
  have hy' : State.getV { s.advance with v := v' } y = s.advance.getV y := hy
  refine .of_complete h h' ?_ fun k hk => ?_
  · simp only [State.flagThenResult]
    split <;> rfl
  · simp only [State.getV_flagThenResult, hx', hy', hoperand _ x hx', hoperand _ y hy']
    obtain rfl | rfl : k = regVF ∨ k = x := by simpa using hk
    · rw [if_pos rfl, if_pos rfl]
    · rw [if_pos rfl, if_pos rfl]

/-- The sprite and its origin are the same, so the drawing is. -/
theorem DifferInOtherRegs.of_drw {x y n : Nibble} (h : exec (.drw x y n) s = .next t)
    (h' : exec (.drw x y n) { s with v := v' } = .next t')
    (hx : State.getV { s with v := v' } x = s.getV x)
    (hy : State.getV { s with v := v' } y = s.getV y) :
    DifferInOtherRegs [regVF] t t' := by
  rcases drw_in_or_out s n with hin | ⟨hn, hout⟩
  · rw [exec_drw_of_in_range x y hin] at h
    rw [exec_drw_of_in_range (s := { s with v := v' }) x y hin] at h'
    have hdrawn : State.drawn { s with v := v' } x y n = s.drawn x y n := by
      simp only [State.drawn, originX, originY, hx, hy]
      rfl
    rw [hdrawn] at h'
    refine .of_complete h h' rfl fun k hk => ?_
    rw [List.mem_singleton.1 hk]
    exact (State.getV_setV_self ..).trans (State.getV_setV_self ..).symm
  · rw [exec_drw_of_out_of_range x y hn hout] at h
    rw [exec_drw_of_out_of_range (s := { s with v := v' }) x y hn hout] at h'
    exact .of_raise h h'

theorem DifferInOtherRegs.of_ret {x : Nibble} (h : exec (.ret x) s = .next t)
    (h' : exec (.ret x) { s with v := v' } = .next t') : DifferInOtherRegs [] t t' := by
  rcases Nat.eq_zero_or_pos s.sp.val with hempty | hpos
  · rw [exec_ret_of_empty x hempty] at h
    rw [exec_ret_of_empty (s := { s with v := v' }) x hempty] at h'
    exact .of_raise h h'
  · rw [exec_ret_of_pos x hpos] at h
    rw [exec_ret_of_pos (s := { s with v := v' }) x hpos] at h'
    exact .of_complete_nil h h' rfl

theorem DifferInOtherRegs.of_call {nnn : Addr12} (h : exec (.call nnn) s = .next t)
    (h' : exec (.call nnn) { s with v := v' } = .next t') : DifferInOtherRegs [] t t' := by
  rcases s.sp_lt_or_full with hlt | hfull
  · rw [exec_call_of_lt nnn hlt] at h
    rw [exec_call_of_lt (s := { s with v := v' }) nnn hlt] at h'
    exact .of_complete_nil h h' rfl
  · rw [exec_call_of_full nnn hfull] at h
    rw [exec_call_of_full (s := { s with v := v' }) nnn hfull] at h'
    exact .of_raise h h'

end

/-- Settles O38: fault or not, what an instruction does is a function of the registers it reads and
of the rest of the state. -/
theorem registersOutsideTheReadSetAreNotObserved :
    Obligations.RegistersOutsideTheReadSetAreNotObserved := by
  intro i s t t' v' hreads h h'
  change DifferInOtherRegs i.writes t t'
  have hfst : ∀ {x l}, i.reads = x :: l → State.getV { s with v := v' } x = s.getV x :=
    fun h => hreads _ (h ▸ List.mem_cons_self)
  have hsnd : ∀ {x y}, i.reads = [x, y] → State.getV { s with v := v' } y = s.getV y :=
    fun h => hreads _ (h ▸ List.mem_cons_of_mem _ List.mem_cons_self)
  cases i with
  | cls x => exact .of_complete_nil h h' rfl
  | jp nnn => exact .of_complete_nil h h' rfl
  | ldI nnn => exact .of_complete_nil h h' rfl
  | jpV0 nnn => exact .of_complete_nil h h' (by rw [hfst rfl])
  | ret x => exact .of_ret h h'
  | call nnn => exact .of_call h h'
  | drw x y n => exact .of_drw h h' (hfst rfl) (hsnd rfl)
  | seImm x nn => exact .of_skip h h' (congrArg (· == nn) (hfst rfl))
  | sneImm x nn => exact .of_skip h h' (congrArg (· != nn) (hfst rfl))
  | seReg x y n => exact .of_skip h h' (congrArg₂ (· == ·) (hfst rfl) (hsnd rfl))
  | sneReg x y n => exact .of_skip h h' (congrArg₂ (· != ·) (hfst rfl) (hsnd rfl))
  | ldImm x nn => exact .of_setV h h' rfl
  | addImm x nn => exact .of_setV h h' (congrArg (· + nn) (hfst rfl))
  | ldReg x y => exact .of_setV h h' (hfst rfl)
  | orReg x y => exact .of_setV h h' (congrArg₂ (· ||| ·) (hfst rfl) (hsnd rfl))
  | andReg x y => exact .of_setV h h' (congrArg₂ (· &&& ·) (hfst rfl) (hsnd rfl))
  | xorReg x y => exact .of_setV h h' (congrArg₂ (· ^^^ ·) (hfst rfl) (hsnd rfl))
  | addReg x y => exact .of_flagThenResult h h' (hfst rfl) (hsnd rfl)
  | sub x y => exact .of_flagThenResult h h' (hfst rfl) (hsnd rfl)
  | subn x y => exact .of_flagThenResult h h' (hfst rfl) (hsnd rfl)
  | shr x y => exact .of_flagThenResult h h' (hfst rfl) (hfst rfl)
  | shl x y => exact .of_flagThenResult h h' (hfst rfl) (hfst rfl)
  | unsupported0 nnn => exact .of_unsupportedStep h h'
  | unsupported8 x y n => exact .of_unsupportedStep h h'
  | unsupportedC nnn => exact .of_unsupportedStep h h'
  | unsupportedE nnn => exact .of_unsupportedStep h h'
  | unsupportedF nnn => exact .of_unsupportedStep h h'

end Sys2Proof.Machine

/-!
Creation, the host's commands and the read-out (spec/60_exceptions.md sections 5 and 6;
spec/70_reset_and_hazards.md section 1; spec/20_memory.md sections 4 and 7): what a command can do,
said once, and the invariants over command sequences.
-/

namespace Sys2Proof.Machine

/-! ### Creation -/

/-- The memory of a created machine: the fill, then the font, then the ROM (rule R360). -/
def layout (cfg : Config) (rom : List Byte) : Memory :=
  (Memory.writeAll cfg.memFill 0 cfg.font.toList).writeAll romBase rom

theorem create_of_le (cfg : Config) {rom : List Byte} (h : rom.length ≤ romMax) :
    create cfg rom = .ok { State.reset with cfg := cfg, mem := layout cfg rom } := by
  rw [create, if_neg (Nat.not_lt.2 h)]
  rfl

section
variable {cfg : Config} {rom : List Byte}

theorem wf_fonted (hfill : Memory.wf cfg.memFill = true) :
    (Memory.writeAll cfg.memFill 0 cfg.font.toList).wf = true :=
  Memory.wf_writeAll hfill (by simp [memSize, fontSize])

/-- A ROM of at most 3584 bytes from 0x200 ends inside memory. -/
theorem rom_fits (h : rom.length ≤ romMax) : romBase + rom.length ≤ memSize := by
  have hsizes : romBase + romMax = memSize := rfl
  omega

theorem wf_layout (hfill : Memory.wf cfg.memFill = true) (h : rom.length ≤ romMax) :
    (layout cfg rom).wf = true :=
  Memory.wf_writeAll (wf_fonted hfill) (rom_fits h)

/-- Every byte of a created machine: the font, the ROM, the fill. -/
theorem layout_read (hfill : Memory.wf cfg.memFill = true) (h : rom.length ≤ romMax) (a : Nat) :
    (layout cfg rom).read a =
      if h : a < fontSize then cfg.font[a]
      else if 0x200 ≤ a ∧ a < 0x200 + rom.length then rom.getD (a - 0x200) 0x00#8
      else Memory.read cfg.memFill a := by
  rw [layout, Memory.read_writeAll (wf_fonted hfill) (rom_fits h),
    Memory.read_writeAll hfill (by simp [memSize, fontSize])]
  by_cases ha : a < fontSize
  · have hlow : ¬ (romBase ≤ a ∧ a < romBase + rom.length) := by
      simp only [fontSize, romBase] at ha ⊢
      omega
    rw [if_neg hlow, dif_pos ha, if_pos (by simpa using ha)]
    simp [List.getD_eq_getElem?_getD, ha]
  · rw [dif_neg ha, if_neg (c := 0 ≤ a ∧ _) (by simpa using ha)]

/-- A created machine meets the invariant. -/
theorem create_inv {s : State} (hfill : Memory.wf cfg.memFill = true)
    (hs : create cfg rom = .ok s) : s.Inv := by
  obtain ⟨hlen, rfl⟩ := create_eq_ok hs
  exact {
    memCanonical := wf_layout hfill hlen
    fillCanonical := hfill
    fontIntact := fun a ha => (layout_read hfill hlen a).trans (dif_pos ha)
    indexInRange := Nat.zero_le _
    pcInRange := show State.reset.pc.toNat ≤ 0x10FE by decide
    returnsInRange := fun k _ hk => absurd hk (Nat.not_lt_zero k)
    latchExplained := fun f hf => nomatch hf }

end

/-- Settles O48: the fields of the record, read element by element where they are vectors. -/
theorem resetLeavesTheStatedValues : Obligations.ResetLeavesTheStatedValues :=
  ⟨fun _ => Vector.getElem_replicate .., rfl, rfl, rfl, rfl, rfl,
    fun _ _ => Vector.getElem_replicate .., Display.pixel_clear, rfl, rfl⟩

/-- Settles O49: the default font is what the unlisted addresses read as, so laying it out on the
empty memory lists nothing. -/
theorem resetMemoryIsFontAndZeroFill : Obligations.ResetMemoryIsFontAndZeroFill := by
  have hlayout : layout Config.default [] = [] := by
    refine Memory.eq_of_read (wf_layout rfl (Nat.zero_le _)) rfl fun a => ?_
    rw [layout_read rfl (Nat.zero_le _), if_neg (by simp)]
    split
    · exact (dif_pos ‹a < fontSize›).symm
    · rfl
  refine ⟨fun _ => rfl, ?_⟩
  rw [create_of_le Config.default (Nat.zero_le _), hlayout]
  rfl

/-- Settles O43: the state after reset is a created machine. -/
theorem resetMeetsTheInvariant : Obligations.ResetMeetsTheInvariant :=
  create_inv rfl resetMemoryIsFontAndZeroFill.2

/-- Settles O50: creation is the state after reset with the laid-out memory. -/
theorem creationLaysOutMemory : Obligations.CreationLaysOutMemory := by
  intro cfg rom hfill hlen
  obtain ⟨hv, hindex, hpc, hsp, hdt, hst, hkeys, hpixels, hrs, hfl⟩ := resetLeavesTheStatedValues
  exact ⟨_, create_of_le cfg hlen, fun a _ => layout_read hfill hlen a, rfl, hv, hindex, hpc, hsp,
    hdt, hst, hkeys, hpixels, hrs, hfl, rfl⟩

/-- Settles O53: reset is creation under the state's own configuration. -/
theorem resetCreatesTheMachineAgain : Obligations.ResetCreatesTheMachineAgain := by
  intro rom s hlen
  have hcreate := create_of_le s.cfg hlen
  exact ⟨_, hcreate, hcreate, rfl, rfl, rfl, rfl, rfl, rfl⟩

/-! ### load -/

section
variable {rom : List Byte} {s : State}

theorem load_of_stepped (h : s.stepped = true) : load rom s = { s with reply := .loadRefused } := by
  rw [load, if_pos h]

theorem load_of_too_large (h : s.stepped = false) (hlen : romMax < rom.length) :
    load rom s = { s with reply := .romTooLarge rom.length } := by
  rw [load, if_neg (Bool.eq_false_iff.1 h), if_pos hlen]

theorem load_of_fits (h : s.stepped = false) (hlen : rom.length ≤ romMax) :
    load rom s = { s with mem := s.mem.writeAll romBase rom, reply := .ok } := by
  rw [load, if_neg (Bool.eq_false_iff.1 h), if_neg (Nat.not_lt.2 hlen)]

end

/-- Settles O51: before any step, the length alone decides between the two answers. -/
theorem loadCopiesTheRomOrIsTooLarge : Obligations.LoadCopiesTheRomOrIsTooLarge := by
  intro rom s hmem hstepped
  refine ⟨load rom s, rfl, fun hlen => ?_, load_of_too_large hstepped⟩
  rw [load_of_fits hstepped hlen]
  exact ⟨rfl, Memory.wf_writeAll hmem (rom_fits hlen),
    fun _ => Memory.read_writeAll hmem (rom_fits hlen)⟩

/-- Settles O52: the refusal comes before the length is looked at, and creation looks at the length
first. -/
theorem lateLoadsAreRefusedAndLongRomsAbort : Obligations.LateLoadsAreRefusedAndLongRomsAbort :=
  ⟨fun _ _ h => congrArg Except.ok (load_of_stepped h), fun _ _ h => create_eq_error.2 ⟨h, rfl⟩,
    fun rom _ h => command_eq_error.2 ⟨rom, rfl, h, rfl⟩⟩

/-! ### The timers, the keypad and the run state -/

/-- Settles O54: both timers count down to 0. -/
theorem tickCountsBothTimersDown : Obligations.TickCountsBothTimersDown :=
  fun s => ⟨tick s, rfl, countDown_toNat s.dt, countDown_toNat s.st, rfl⟩

/-- Settles O55: one element of the keypad is set. -/
theorem setKeyWritesOneKey : Obligations.SetKeyWritesOneKey := by
  intro k down s
  refine ⟨setKey k down s, rfl, fun j hj => ?_, rfl⟩
  simp only [setKey, Vector.getElem_set, eq_comm]

/-- Settles O56: the table of the run states. -/
theorem runStateFollowsTheTable : Obligations.RunStateFollowsTheTable :=
  fun s => ⟨⟨pauseToggle s, rfl, congrArg RunState.toggled, congrArg RunState.toggled,
    congrArg RunState.toggled, rfl⟩, rfl⟩

/-! ### What a command can do -/

/-- Only the timers, the keypad, the run state and what was returned differ, and Halted stays. -/
def HostOnly (s t : State) : Prop :=
  t = { s with dt := t.dt, st := t.st, keypad := t.keypad, rs := t.rs, reply := t.reply } ∧
    (s.rs = .halted → t.rs = .halted)

section
variable {s t u : State}

/-- Everything a command that leaves a machine can have done: it touched the host's side alone, or
it stepped, loaded a ROM before the first step, or created the machine again. -/
theorem command_cases {c : Command} (h : command c s = .ok t) :
    HostOnly s t ∨ step s = .next t ∨
      (∃ rom : List Byte, s.stepped = false ∧ rom.length ≤ romMax ∧
        t = { s with mem := s.mem.writeAll romBase rom, reply := .ok }) ∨
      (c.isReset = true ∧ ∃ rom, create s.cfg rom = .ok t) := by
  cases c with
  | step =>
    obtain rfl : stepCommand s = t := Except.ok.inj h
    obtain ⟨u, hu, hcommand⟩ | ⟨r, hcommand⟩ := stepCommand_cases s
    · exact .inr (.inl (hcommand ▸ hu))
    · rw [hcommand]
      exact .inl ⟨rfl, id⟩
  | tick =>
    obtain rfl : tick s = t := Except.ok.inj h
    exact .inl ⟨rfl, id⟩
  | setKey k down =>
    obtain rfl : setKey k down s = t := Except.ok.inj h
    exact .inl ⟨rfl, id⟩
  | pauseToggle =>
    obtain rfl : pauseToggle s = t := Except.ok.inj h
    exact .inl ⟨rfl, congrArg RunState.toggled⟩
  | quit =>
    obtain rfl : quit s = t := Except.ok.inj h
    exact .inl ⟨rfl, fun _ => rfl⟩
  | load rom =>
    obtain rfl : load rom s = t := Except.ok.inj h
    rcases Bool.eq_false_or_eq_true s.stepped with hstepped | hstepped
    · rw [load_of_stepped hstepped]
      exact .inl ⟨rfl, id⟩
    · rcases Nat.lt_or_ge romMax rom.length with hlong | hlen
      · rw [load_of_too_large hstepped hlong]
        exact .inl ⟨rfl, id⟩
      · exact .inr (.inr (.inl ⟨rom, hstepped, hlen, load_of_fits hstepped hlen⟩))
  | reset rom => exact .inr (.inr (.inr ⟨rfl, rom, h⟩))

/-! ### The invariant over command sequences -/

/-- The invariant does not speak of the host's side. -/
theorem HostOnly.inv (h : HostOnly s t) (hs : s.Inv) : t.Inv := by
  rw [h.1]
  refine { hs with latchExplained := fun f hf => ?_ }
  obtain ⟨hexplains, hstepped⟩ := hs.latchExplained f hf
  exact ⟨by cases f <;> exact hexplains, hstepped⟩

/-- A ROM loaded before the first step keeps the invariant: it lies above the font, and no fault can
be latched yet. -/
theorem load_inv {rom : List Byte} (hs : s.Inv) (hstepped : s.stepped = false)
    (hlen : rom.length ≤ romMax) :
    State.Inv { s with mem := s.mem.writeAll romBase rom, reply := .ok } := by
  refine { hs with
    memCanonical := Memory.wf_writeAll hs.memCanonical (rom_fits hlen)
    fontIntact := fun a ha => ?_
    latchExplained := fun f hf => ?_ }
  · have hlow : ¬ (romBase ≤ a ∧ a < romBase + rom.length) := by
      simp only [fontSize, romBase] at ha ⊢
      omega
    exact (Memory.read_writeAll hs.memCanonical (rom_fits hlen)).trans
      ((if_neg hlow).trans (hs.fontIntact a ha))
  · have hlate := (hs.latchExplained f hf).2
    rw [hstepped] at hlate
    cases hlate

/-- Every command that leaves a machine keeps the invariant. -/
theorem command_inv {c : Command} (hs : s.Inv) (h : command c s = .ok t) : t.Inv := by
  obtain hhost | hstep | ⟨rom, hstepped, hlen, rfl⟩ | ⟨-, rom, hcreate⟩ := command_cases h
  · exact hhost.inv hs
  · exact everyStepKeepsTheInvariant s t hs hstep
  · exact load_inv hs hstepped hlen
  · exact create_inv hs.fillCanonical hcreate

end

/-- Settles O45: creation meets the invariant, each command keeps it, and so does a sequence. -/
theorem everyCommandSequenceKeepsTheInvariant :
    Obligations.EveryCommandSequenceKeepsTheInvariant :=
  ⟨fun _ _ _ hfill h => create_inv hfill h, fun _ _ _ hs h =>
    runCommands_induct (allowed := fun _ => True) (P := State.Inv)
      (fun _ _ _ _ => command_inv) (fun _ _ => trivial) hs h⟩

/-! ### A frozen machine -/

section
variable {s t u : State}

theorem SameProgramState.trans (hst : SameProgramState s t) (htu : SameProgramState t u) :
    SameProgramState s u := by
  obtain ⟨hcfg, hmem, hv, hindex, hpc, hstack, hsp, hdisplay, hfl⟩ := hst
  obtain ⟨hcfg', hmem', hv', hindex', hpc', hstack', hsp', hdisplay', hfl'⟩ := htu
  exact ⟨hcfg'.trans hcfg, hmem'.trans hmem, hv'.trans hv, hindex'.trans hindex, hpc'.trans hpc,
    hstack'.trans hstack, hsp'.trans hsp, hdisplay'.trans hdisplay, hfl'.trans hfl⟩

theorem SameProgramState.refl (s : State) : SameProgramState s s :=
  ⟨rfl, rfl, rfl, rfl, rfl, rfl, rfl, rfl, rfl⟩

theorem SameProgramState.fl_eq (h : SameProgramState s t) : t.fl = s.fl := by
  obtain ⟨-, -, -, -, -, -, -, -, hfl⟩ := h
  exact hfl

theorem HostOnly.sameProgramState (h : HostOnly s t) : SameProgramState s t := by
  rw [h.1]
  exact .refl s

theorem HostOnly.stepped (h : HostOnly s t) : t.stepped = s.stepped := by
  rw [h.1]

/-- Once a machine has stepped, a command other than reset that cannot step touches the host's side
alone: a load is refused (rule R85). -/
theorem command_hostOnly {c : Command} (hstepped : s.stepped = true) (hgate : ∀ u, step s ≠ .next u)
    (hc : c.isReset = false) (h : command c s = .ok t) : HostOnly s t := by
  obtain hhost | hstep | ⟨rom, hearly, -⟩ | ⟨hreset, -⟩ := command_cases h
  · exact hhost
  · exact absurd hstep (hgate t)
  · exact absurd (hstepped.symm.trans hearly) (by decide)
  · exact absurd (hreset.symm.trans hc) (by decide)

/-- Halted is left by reset only (rule R340). -/
theorem command_halted {c : Command} (hs : s.rs = .halted) (hc : c.isReset = false)
    (h : command c s = .ok t) : t.rs = .halted := by
  obtain hhost | hstep | ⟨rom, -, -, rfl⟩ | ⟨hreset, -⟩ := command_cases h
  · exact hhost.2 hs
  · exact absurd (hs.symm.trans (step_eq_next hstep).1) (by decide)
  · exact hs
  · exact absurd (hreset.symm.trans hc) (by decide)

end

/-- Settles O46: a latched fault gates every step, and the invariant says that a step was performed,
so each command touches the host's side alone. -/
theorem latchedFaultStaysUntilReset : Obligations.LatchedFaultStaysUntilReset := by
  intro s t f cs hs hfl hcs h
  have hsame : SameProgramState s t ∧ t.stepped = true := by
    refine runCommands_induct (P := fun u => SameProgramState s u ∧ u.stepped = true)
      ?_ hcs ⟨.refl s, (hs.latchExplained f hfl).2⟩ h
    rintro c u w hc ⟨hu, hstepped⟩ hcommand
    have hgate : ∀ x, step u ≠ .next x := by
      intro x hx
      obtain ⟨-, hnone, -⟩ := step_eq_next hx
      have hlatched := hu.fl_eq.trans hfl
      exact absurd (hlatched.symm.trans hnone) (by simp)
    have hhost := command_hostOnly hstepped hgate hc hcommand
    exact ⟨hu.trans hhost.sameProgramState, hhost.stepped.trans hstepped⟩
  exact ⟨hsame.1.fl_eq.trans hfl, hsame.1⟩

/-- Settles O47: Halted gates every step and no command but reset leaves it; a machine that has
stepped refuses a load as well, so each command touches the host's side alone. -/
theorem haltedStaysUntilReset : Obligations.HaltedStaysUntilReset := by
  intro s t cs hs hcs h
  have hkeeps : t.rs = .halted ∧
      (s.stepped = true → SameProgramState s t ∧ t.stepped = true) := by
    refine runCommands_induct (P := fun u => u.rs = .halted ∧
      (s.stepped = true → SameProgramState s u ∧ u.stepped = true)) ?_ hcs
      ⟨hs, fun hstepped => ⟨.refl s, hstepped⟩⟩ h
    rintro c u w hc ⟨hrs, hframe⟩ hcommand
    have hgate : ∀ x, step u ≠ .next x := by
      intro x hx
      exact absurd (hrs.symm.trans (step_eq_next hx).1) (by decide)
    refine ⟨command_halted hrs hc hcommand, fun hstepped => ?_⟩
    obtain ⟨hu, hustepped⟩ := hframe hstepped
    have hhost := command_hostOnly hustepped hgate hc hcommand
    exact ⟨hu.trans hhost.sameProgramState, hhost.stepped.trans hustepped⟩
  exact ⟨hkeeps.1, fun hstepped => (hkeeps.2 hstepped).1⟩

/-! ### The read-out -/

/-- The sequence that the host reads is the rows one after another. -/
theorem Display.sequence_eq_flatten (d : Display) : d.sequence = d.flatten.toList := by
  simp only [Display.sequence, List.flatMap_def, Vector.flatten, Vector.toList,
    Array.toList_flatten, Array.toList_map, List.map_map]
  rfl

/-- Settles O57: element i of the rows one after another is element i mod 64 of row i / 64. -/
theorem displayIsReadRowMajor : Obligations.DisplayIsReadRowMajor := by
  intro s
  rw [State.displaySequence, Display.sequence_eq_flatten]
  refine ⟨Vector.length_toList .., fun px py hpx hpy => ?_⟩
  have hlt : py * 64 + px < dispH * dispW := by
    simp only [dispH, dispW]
    omega
  have hrow : (py * 64 + px) / dispW = py := by
    simp only [dispW]
    omega
  have hcol : (py * 64 + px) % dispW = px := by
    simp only [dispW]
    omega
  rw [List.getElem?_eq_getElem (by simpa using hlt), Vector.getElem_toList,
    Vector.getElem_flatten hlt, Display.pixel, dif_pos ⟨hpy, hpx⟩]
  simp only [hrow, hcol]

end Sys2Proof.Machine
